-- ==== Sys2Proof/Word.lean ====
section
/-! DEFINITION. The word of the machine: the byte (R4 `XLEN` = 8, R5). -/

namespace Sys2Proof

/-- A byte, 8 bits: a register, a memory cell, an opcode byte, an operand byte (R4 `XLEN`, R5). -/
abbrev Byte := BitVec 8

end Sys2Proof
end

