-- ==== Sys2Proof/Syntax.lean ====
section
/-! DEFINITION. The syntax of the MicroSim instruction set: registers, operands, formats, opcode variants and
instructions (R10, R50 to R58, R171). One constructor of `Instr` per row of spec/opcode_table.json. -/

namespace Sys2Proof

/-- The four general registers, in index order 0 to 3 (R10; the pairing is decision D2, log 2). -/
inductive Reg where
  | al | bl | cl | dl
  deriving DecidableEq, Repr

/-- A Register operand byte as it stands in the instruction. Its values 4 to 255 name no register; the byte is
checked when the instruction uses it, after every operand byte has been fetched (R52, R62, R235; log 7). -/
abbrev RegByte := Byte

/-- A RegisterIndirect operand: bits 7:3 a signed offset, bits 2:0 a register field (R53). -/
structure Indirect where
  off : BitVec 5
  reg : BitVec 3
  deriving DecidableEq, Repr

/-- The eight families of conditional jumps (R171; the names are decision D3, log 3). -/
inductive Cond where
  | jc | jnc | jz | jnz | jo | jno | js | jns
  deriving DecidableEq, Repr

/-- The instruction formats (R51). -/
inductive Format where
  | f0 | f1r | f1i | f1a | f1x | f1p | f2rr | f2ri | f2ra | f2rx | f2ar | f2xr | f2ai | f2xi | f2rs | f2sr
  deriving DecidableEq, Repr

/-- The 85 opcode variants, "one instruction+addressing-mode variant" each, without their operands (R8 "Opcode",
R58). The opcode map `OPMAP` says which number selects which. -/
inductive Form where
  | hlt | movRR | movRA | movRX | movAR | movXR | movRI | movAI | movXI | movRS | movSR | addI | addR | addA
  | addX | subI | subR | subA | subX | inc | dec | neg | mulI | mulR | mulA | mulX | divI | divR | divA
  | divX | cmpI | cmpR | cmpA | cmpX | andI | andR | andA | andX | orI | orR | orA | orX | xorI | xorR | xorA
  | xorX | not | shlI | shlR | shlA | shlX | shrI | shrR | shrA | shrX | jmpA | jmpX | jcA | jcX | jncA
  | jncX | jzA | jzX | jnzA | jnzX | joA | joX | jnoA | jnoX | jsA | jsX | jnsA | jnsX | pushI | pushR
  | pushA | pushX | pop | pushf | popf | callA | callX | ret | inp | outp
  deriving DecidableEq, Repr

/-- The 85 instructions with their operand bytes in assembler order (R51, R58). Operand names: `d` a destination
Register byte, `r` a Register byte, `k` an Immediate (R55), `a` a DirectAddress or a jump target (R54), `x` a
RegisterIndirect operand (R53), `o` a StackOffset (R56), `p` a Port (R57). -/
inductive Instr where
  /-- HLT (R223). -/
  | hlt
  /-- MOV reg,reg (R81). -/
  | movRR (d : RegByte) (r : RegByte)
  /-- MOV reg,[addr] (R82). -/
  | movRA (d : RegByte) (a : Byte)
  /-- MOV reg,[reg] (R83). -/
  | movRX (d : RegByte) (x : Indirect)
  /-- MOV [addr],reg (R84). -/
  | movAR (a : Byte) (r : RegByte)
  /-- MOV [reg],reg (R85). -/
  | movXR (x : Indirect) (r : RegByte)
  /-- MOV reg,byte (R86). -/
  | movRI (d : RegByte) (k : Byte)
  /-- MOV [addr],byte (R87). -/
  | movAI (a : Byte) (k : Byte)
  /-- MOV [reg],byte (R88). -/
  | movXI (x : Indirect) (k : Byte)
  /-- MOV reg,[SP+off] (R89). -/
  | movRS (d : RegByte) (o : Byte)
  /-- MOV [SP+off],reg (R90). -/
  | movSR (o : Byte) (r : RegByte)
  /-- ADD reg,byte (R101). -/
  | addI (d : RegByte) (k : Byte)
  /-- ADD reg,reg (R102). -/
  | addR (d : RegByte) (r : RegByte)
  /-- ADD reg,[addr] (R103). -/
  | addA (d : RegByte) (a : Byte)
  /-- ADD reg,[reg] (R104). -/
  | addX (d : RegByte) (x : Indirect)
  /-- SUB reg,byte (R105). -/
  | subI (d : RegByte) (k : Byte)
  /-- SUB reg,reg (R106). -/
  | subR (d : RegByte) (r : RegByte)
  /-- SUB reg,[addr] (R107). -/
  | subA (d : RegByte) (a : Byte)
  /-- SUB reg,[reg] (R108). -/
  | subX (d : RegByte) (x : Indirect)
  /-- INC reg (R109). -/
  | inc (r : RegByte)
  /-- DEC reg (R110). -/
  | dec (r : RegByte)
  /-- NEG reg (R111). -/
  | neg (r : RegByte)
  /-- MUL reg,byte (R112). -/
  | mulI (d : RegByte) (k : Byte)
  /-- MUL reg,reg (R113). -/
  | mulR (d : RegByte) (r : RegByte)
  /-- MUL reg,[addr] (R114). -/
  | mulA (d : RegByte) (a : Byte)
  /-- MUL reg,[reg] (R115). -/
  | mulX (d : RegByte) (x : Indirect)
  /-- DIV reg,byte (R116). -/
  | divI (d : RegByte) (k : Byte)
  /-- DIV reg,reg (R117). -/
  | divR (d : RegByte) (r : RegByte)
  /-- DIV reg,[addr] (R118). -/
  | divA (d : RegByte) (a : Byte)
  /-- DIV reg,[reg] (R119). -/
  | divX (d : RegByte) (x : Indirect)
  /-- CMP reg,byte (R131). -/
  | cmpI (d : RegByte) (k : Byte)
  /-- CMP reg,reg (R132). -/
  | cmpR (d : RegByte) (r : RegByte)
  /-- CMP reg,[addr] (R133). -/
  | cmpA (d : RegByte) (a : Byte)
  /-- CMP reg,[reg] (R134). -/
  | cmpX (d : RegByte) (x : Indirect)
  /-- AND reg,byte (R142). -/
  | andI (d : RegByte) (k : Byte)
  /-- AND reg,reg (R143). -/
  | andR (d : RegByte) (r : RegByte)
  /-- AND reg,[addr] (R144). -/
  | andA (d : RegByte) (a : Byte)
  /-- AND reg,[reg] (R145). -/
  | andX (d : RegByte) (x : Indirect)
  /-- OR reg,byte (R146). -/
  | orI (d : RegByte) (k : Byte)
  /-- OR reg,reg (R147). -/
  | orR (d : RegByte) (r : RegByte)
  /-- OR reg,[addr] (R148). -/
  | orA (d : RegByte) (a : Byte)
  /-- OR reg,[reg] (R149). -/
  | orX (d : RegByte) (x : Indirect)
  /-- XOR reg,byte (R150). -/
  | xorI (d : RegByte) (k : Byte)
  /-- XOR reg,reg (R151). -/
  | xorR (d : RegByte) (r : RegByte)
  /-- XOR reg,[addr] (R152). -/
  | xorA (d : RegByte) (a : Byte)
  /-- XOR reg,[reg] (R153). -/
  | xorX (d : RegByte) (x : Indirect)
  /-- NOT reg (R154). -/
  | not (r : RegByte)
  /-- SHL reg,byte (R155). -/
  | shlI (d : RegByte) (k : Byte)
  /-- SHL reg,reg (R156). -/
  | shlR (d : RegByte) (r : RegByte)
  /-- SHL reg,[addr] (R157). -/
  | shlA (d : RegByte) (a : Byte)
  /-- SHL reg,[reg] (R158). -/
  | shlX (d : RegByte) (x : Indirect)
  /-- SHR reg,byte (R159). -/
  | shrI (d : RegByte) (k : Byte)
  /-- SHR reg,reg (R160). -/
  | shrR (d : RegByte) (r : RegByte)
  /-- SHR reg,[addr] (R161). -/
  | shrA (d : RegByte) (a : Byte)
  /-- SHR reg,[reg] (R162). -/
  | shrX (d : RegByte) (x : Indirect)
  /-- JMP addr (R172). -/
  | jmpA (a : Byte)
  /-- JMP [reg] (R173). -/
  | jmpX (x : Indirect)
  /-- JC addr (R174). -/
  | jcA (a : Byte)
  /-- JC [reg] (R175). -/
  | jcX (x : Indirect)
  /-- JNC addr (R176). -/
  | jncA (a : Byte)
  /-- JNC [reg] (R177). -/
  | jncX (x : Indirect)
  /-- JZ addr (alias JE) (R178). -/
  | jzA (a : Byte)
  /-- JZ [reg] (alias JE) (R179). -/
  | jzX (x : Indirect)
  /-- JNZ addr (alias JNE) (R180). -/
  | jnzA (a : Byte)
  /-- JNZ [reg] (alias JNE) (R181). -/
  | jnzX (x : Indirect)
  /-- JO addr (R182). -/
  | joA (a : Byte)
  /-- JO [reg] (R183). -/
  | joX (x : Indirect)
  /-- JNO addr (R184). -/
  | jnoA (a : Byte)
  /-- JNO [reg] (R185). -/
  | jnoX (x : Indirect)
  /-- JS addr (R186). -/
  | jsA (a : Byte)
  /-- JS [reg] (R187). -/
  | jsX (x : Indirect)
  /-- JNS addr (R188). -/
  | jnsA (a : Byte)
  /-- JNS [reg] (R189). -/
  | jnsX (x : Indirect)
  /-- PUSH byte (R202). -/
  | pushI (k : Byte)
  /-- PUSH reg (R203). -/
  | pushR (r : RegByte)
  /-- PUSH [addr] (R204). -/
  | pushA (a : Byte)
  /-- PUSH [reg] (R205). -/
  | pushX (x : Indirect)
  /-- POP reg (R206). -/
  | pop (r : RegByte)
  /-- PUSHF (R207). -/
  | pushf
  /-- POPF (R208). -/
  | popf
  /-- CALL addr (R215). -/
  | callA (a : Byte)
  /-- CALL [reg] (R216). -/
  | callX (x : Indirect)
  /-- RET (R217). -/
  | ret
  /-- IN port (R221). -/
  | inp (p : Byte)
  /-- OUT port (R222). -/
  | outp (p : Byte)
  deriving DecidableEq, Repr

end Sys2Proof
end

