-- ==== Sys2Proof/Config.lean ====
section
/-! DEFINITION. What an implementation fixes: the shape of the configuration record (R4) and the one free value of
the machine, the environment's answer to a port (R220). The record's values are in Sys2Proof/Machine/Params.lean. -/

namespace Sys2Proof

/-- The four arithmetic flags C, O, Z, S (R14). -/
structure Flags where
  c : Bool
  o : Bool
  z : Bool
  s : Bool
  deriving DecidableEq, Repr

/-- What POPF does with bit 0 of the popped byte, parameter `POPF_RESERVED` (R4, D8, U3): ignore it, or load it
into F. Bits 5 to 7 have no flag to go to. -/
inductive PopfReserved where
  | ignore
  | loadFault
  deriving DecidableEq, Repr

/-- The configuration record that R4 asks a model to hold. `XLEN` = 8 and `NGPR` = 4 are the types `Byte` and `Reg`;
`NOPCODES` is the length of `opmap`; `IN_UNMAPPED` is `portAnswer` below. -/
structure Params where
  /-- `MEM_SIZE`: bytes of memory. -/
  memSize : Nat
  /-- `PROG_MAX`: the longest program, and the size of the program region. -/
  progMax : Nat
  /-- `DISPLAY_BASE`: first address of the display buffer. -/
  displayBase : Nat
  /-- `DISPLAY_END`: last address of the display buffer. -/
  displayEnd : Nat
  /-- `DISPLAY_FILL`: a display byte after a memory reset. -/
  displayFill : Byte
  /-- `SP_MIN`: lowest legal SP. -/
  spMin : Nat
  /-- `SP_MAX`: highest legal SP. -/
  spMax : Nat
  /-- The reset value of SP, which R4 states to be `SP_MAX`. -/
  spReset : Byte
  /-- `IP_RESET`: reset value of IP. -/
  ipReset : Int
  /-- `OPMAP`: the variant each opcode number selects, number 0 first (R58). -/
  opmap : List Form
  /-- `CONDMAP`: when each conditional family is taken (R171). -/
  condmap : Cond → Flags → Bool
  /-- `PORT_KEYBOARD`: IN, blocking. -/
  portKeyboard : Byte
  /-- `PORT_LIGHTS`: OUT. -/
  portLights : Byte
  /-- `PORT_HEATER`: IN status and OUT control. -/
  portHeater : Byte
  /-- `SHIFT_WIDE`: the count by which the host's shift really shifts when asked for `n` (R141, D11, U4). -/
  shiftCount : Nat → Nat
  /-- `POPF_RESERVED` (D8, U3). -/
  popfReserved : PopfReserved
  /-- `LABEL_CASE`: the key under which the assembler compares a label's text (R64, D26). -/
  labelKey : List Char → List Char

/-- FREE VALUE: what the environment answers at a port when nothing was supplied, on the n-th such draw. A free
input under no law (R220), any byte (D15, U5). Nothing can be proved of its value. Log 15. -/
opaque Config.portAnswer (port : Byte) (n : Nat) : Byte

end Sys2Proof
end

