-- ==== Sys2Proof/Machine/Params.lean ====
section
/-! DEFINITION. The values of the configuration record for this hardware (R4): the opcode map (R58), the jump
conditions (R171), the address map (R34), the stack bounds (R12, R46) and the open parameters' defaults. -/

namespace Sys2Proof.Machine

/-- `OPMAP`, the table of R58: opcode numbers 0 to 84 in order (the spec's own assignment, D1; log 1). -/
def opmapDefault : List Form :=
  [ .hlt, .movRR, .movRA, .movRX, .movAR, .movXR, .movRI, .movAI, .movXI, .movRS,
    .movSR, .addI, .addR, .addA, .addX, .subI, .subR, .subA, .subX, .inc,
    .dec, .neg, .mulI, .mulR, .mulA, .mulX, .divI, .divR, .divA, .divX,
    .cmpI, .cmpR, .cmpA, .cmpX, .andI, .andR, .andA, .andX, .orI, .orR,
    .orA, .orX, .xorI, .xorR, .xorA, .xorX, .not, .shlI, .shlR, .shlA,
    .shlX, .shrI, .shrR, .shrA, .shrX, .jmpA, .jmpX, .jcA, .jcX, .jncA,
    .jncX, .jzA, .jzX, .jnzA, .jnzX, .joA, .joX, .jnoA, .jnoX, .jsA,
    .jsX, .jnsA, .jnsX, .pushI, .pushR, .pushA, .pushX, .pop, .pushf, .popf,
    .callA, .callX, .ret, .inp, .outp ]

/-- `CONDMAP`, the table of R171: each family reads one flag (the spec's own choice, D3; log 3). -/
def condmapDefault : Cond → Flags → Bool
  | .jc, fl => fl.c
  | .jnc, fl => !fl.c
  | .jz, fl => fl.z
  | .jnz, fl => !fl.z
  | .jo, fl => fl.o
  | .jno, fl => !fl.o
  | .js, fl => fl.s
  | .jns, fl => !fl.s

/-- The parameters of R4 with the value this hardware takes. -/
def params : Params where
  memSize := 256
  progMax := 192
  displayBase := 0xC0
  displayEnd := 0xFF
  displayFill := 0x20
  spMin := 0x80
  spMax := 0xBF
  spReset := 0xBF
  ipReset := 0
  opmap := opmapDefault
  condmap := condmapDefault
  portKeyboard := 0x01
  portLights := 0x02
  portHeater := 0x03
  shiftCount := fun n => n
  popfReserved := .ignore
  labelKey := fun text => text

end Sys2Proof.Machine
end

