-- ==== Sys2Proof/WellFormed.lean ====
section
/-! DEFINITION. Which instructions are well formed: every Register operand byte names a register (R52). A
RegisterIndirect, DirectAddress, Immediate, StackOffset or Port operand has no illegal value (R60). -/

namespace Sys2Proof

/-- The Register operand bytes of an instruction, in the order its rule validates them (R52, R80, R100, R235). -/
def Instr.regBytes : Instr → List RegByte
  | .hlt => []
  | .movRR d r => [d, r]
  | .movRA d _ => [d]
  | .movRX d _ => [d]
  | .movAR _ r => [r]
  | .movXR _ r => [r]
  | .movRI d _ => [d]
  | .movAI _ _ => []
  | .movXI _ _ => []
  | .movRS d _ => [d]
  | .movSR _ r => [r]
  | .addI d _ => [d]
  | .addR d r => [d, r]
  | .addA d _ => [d]
  | .addX d _ => [d]
  | .subI d _ => [d]
  | .subR d r => [d, r]
  | .subA d _ => [d]
  | .subX d _ => [d]
  | .inc r => [r]
  | .dec r => [r]
  | .neg r => [r]
  | .mulI d _ => [d]
  | .mulR d r => [d, r]
  | .mulA d _ => [d]
  | .mulX d _ => [d]
  | .divI d _ => [d]
  | .divR d r => [d, r]
  | .divA d _ => [d]
  | .divX d _ => [d]
  | .cmpI d _ => [d]
  | .cmpR d r => [d, r]
  | .cmpA d _ => [d]
  | .cmpX d _ => [d]
  | .andI d _ => [d]
  | .andR d r => [d, r]
  | .andA d _ => [d]
  | .andX d _ => [d]
  | .orI d _ => [d]
  | .orR d r => [d, r]
  | .orA d _ => [d]
  | .orX d _ => [d]
  | .xorI d _ => [d]
  | .xorR d r => [d, r]
  | .xorA d _ => [d]
  | .xorX d _ => [d]
  | .not r => [r]
  | .shlI d _ => [d]
  | .shlR d r => [d, r]
  | .shlA d _ => [d]
  | .shlX d _ => [d]
  | .shrI d _ => [d]
  | .shrR d r => [d, r]
  | .shrA d _ => [d]
  | .shrX d _ => [d]
  | .jmpA _ => []
  | .jmpX _ => []
  | .jcA _ => []
  | .jcX _ => []
  | .jncA _ => []
  | .jncX _ => []
  | .jzA _ => []
  | .jzX _ => []
  | .jnzA _ => []
  | .jnzX _ => []
  | .joA _ => []
  | .joX _ => []
  | .jnoA _ => []
  | .jnoX _ => []
  | .jsA _ => []
  | .jsX _ => []
  | .jnsA _ => []
  | .jnsX _ => []
  | .pushI _ => []
  | .pushR r => [r]
  | .pushA _ => []
  | .pushX _ => []
  | .pop r => [r]
  | .pushf => []
  | .popf => []
  | .callA _ => []
  | .callX _ => []
  | .ret => []
  | .inp _ => []
  | .outp _ => []

/-- Well formed: each Register operand byte is 0 to 3 (R52). -/
def WellFormed (i : Instr) : Bool := i.regBytes.all fun b => decide (b.toNat < 4)

end Sys2Proof
end

