-- ==== Sys2Proof/Decode.lean ====
section
/-! DEFINITION. Decoding and encoding (R50 to R61, R76): operand fields, the format of each opcode variant, the
decoder, total on any bytes and rejecting by name, and the encoder written from the same tables. -/

namespace Sys2Proof

open Sys2Proof.Machine (params)

/-- The register an index 0 to 3 names (R10, D2; log 2); no other index names one (R52). -/
def Reg.ofIndex? : Nat → Option Reg
  | 0 => some .al
  | 1 => some .bl
  | 2 => some .cl
  | 3 => some .dl
  | _ => none

/-- The index of a register (R10). -/
def Reg.index : Reg → Nat
  | .al => 0
  | .bl => 1
  | .cl => 2
  | .dl => 3

/-- The Register operand byte that names a register (R52, R66). -/
def Reg.toByte (r : Reg) : RegByte := BitVec.ofNat 8 r.index

/-- The two fields of a RegisterIndirect byte: `off` = v[7:3], `reg` = v[2:0] (R53). -/
def Indirect.ofByte (v : Byte) : Indirect :=
  { off := v.extractLsb' 3 5, reg := v.extractLsb' 0 3 }

/-- The RegisterIndirect byte of two fields: `v = (off mod 32) * 8 + reg` (R53). -/
def Indirect.toByte (x : Indirect) : Byte := x.off ++ x.reg

/-- How many operand bytes a format has (R50, R51). -/
def Format.nops : Format → Nat
  | .f0 => 0
  | .f1r | .f1i | .f1a | .f1x | .f1p => 1
  | .f2rr | .f2ri | .f2ra | .f2rx | .f2ar | .f2xr | .f2ai | .f2xi | .f2rs | .f2sr => 2

/-- The format of each opcode variant (R51, R58). -/
def Form.format : Form → Format
  | .hlt | .pushf | .popf | .ret => .f0
  | .movRR | .addR | .subR | .mulR | .divR | .cmpR | .andR | .orR | .xorR | .shlR |
    .shrR => .f2rr
  | .movRA | .addA | .subA | .mulA | .divA | .cmpA | .andA | .orA | .xorA | .shlA |
    .shrA => .f2ra
  | .movRX | .addX | .subX | .mulX | .divX | .cmpX | .andX | .orX | .xorX | .shlX |
    .shrX => .f2rx
  | .movAR => .f2ar
  | .movXR => .f2xr
  | .movRI | .addI | .subI | .mulI | .divI | .cmpI | .andI | .orI | .xorI | .shlI |
    .shrI => .f2ri
  | .movAI => .f2ai
  | .movXI => .f2xi
  | .movRS => .f2rs
  | .movSR => .f2sr
  | .inc | .dec | .neg | .not | .pushR | .pop => .f1r
  | .jmpA | .jcA | .jncA | .jzA | .jnzA | .joA | .jnoA | .jsA | .jnsA | .pushA |
    .callA => .f1a
  | .jmpX | .jcX | .jncX | .jzX | .jnzX | .joX | .jnoX | .jsX | .jnsX | .pushX |
    .callX => .f1x
  | .pushI => .f1i
  | .inp | .outp => .f1p

/-- `NOPS`, the operand count of an opcode variant, which fixes its length 1 + n (R59). -/
def Form.nops (f : Form) : Nat := f.format.nops

/-- The instruction an opcode variant makes of its operand bytes `b1`, `b2` (R51); a byte its format does not have is
not used. -/
def Form.build (f : Form) (b1 b2 : Byte) : Instr :=
  match f with
  | .hlt => .hlt
  | .movRR => .movRR b1 b2
  | .movRA => .movRA b1 b2
  | .movRX => .movRX b1 (.ofByte b2)
  | .movAR => .movAR b1 b2
  | .movXR => .movXR (.ofByte b1) b2
  | .movRI => .movRI b1 b2
  | .movAI => .movAI b1 b2
  | .movXI => .movXI (.ofByte b1) b2
  | .movRS => .movRS b1 b2
  | .movSR => .movSR b1 b2
  | .addI => .addI b1 b2
  | .addR => .addR b1 b2
  | .addA => .addA b1 b2
  | .addX => .addX b1 (.ofByte b2)
  | .subI => .subI b1 b2
  | .subR => .subR b1 b2
  | .subA => .subA b1 b2
  | .subX => .subX b1 (.ofByte b2)
  | .inc => .inc b1
  | .dec => .dec b1
  | .neg => .neg b1
  | .mulI => .mulI b1 b2
  | .mulR => .mulR b1 b2
  | .mulA => .mulA b1 b2
  | .mulX => .mulX b1 (.ofByte b2)
  | .divI => .divI b1 b2
  | .divR => .divR b1 b2
  | .divA => .divA b1 b2
  | .divX => .divX b1 (.ofByte b2)
  | .cmpI => .cmpI b1 b2
  | .cmpR => .cmpR b1 b2
  | .cmpA => .cmpA b1 b2
  | .cmpX => .cmpX b1 (.ofByte b2)
  | .andI => .andI b1 b2
  | .andR => .andR b1 b2
  | .andA => .andA b1 b2
  | .andX => .andX b1 (.ofByte b2)
  | .orI => .orI b1 b2
  | .orR => .orR b1 b2
  | .orA => .orA b1 b2
  | .orX => .orX b1 (.ofByte b2)
  | .xorI => .xorI b1 b2
  | .xorR => .xorR b1 b2
  | .xorA => .xorA b1 b2
  | .xorX => .xorX b1 (.ofByte b2)
  | .not => .not b1
  | .shlI => .shlI b1 b2
  | .shlR => .shlR b1 b2
  | .shlA => .shlA b1 b2
  | .shlX => .shlX b1 (.ofByte b2)
  | .shrI => .shrI b1 b2
  | .shrR => .shrR b1 b2
  | .shrA => .shrA b1 b2
  | .shrX => .shrX b1 (.ofByte b2)
  | .jmpA => .jmpA b1
  | .jmpX => .jmpX (.ofByte b1)
  | .jcA => .jcA b1
  | .jcX => .jcX (.ofByte b1)
  | .jncA => .jncA b1
  | .jncX => .jncX (.ofByte b1)
  | .jzA => .jzA b1
  | .jzX => .jzX (.ofByte b1)
  | .jnzA => .jnzA b1
  | .jnzX => .jnzX (.ofByte b1)
  | .joA => .joA b1
  | .joX => .joX (.ofByte b1)
  | .jnoA => .jnoA b1
  | .jnoX => .jnoX (.ofByte b1)
  | .jsA => .jsA b1
  | .jsX => .jsX (.ofByte b1)
  | .jnsA => .jnsA b1
  | .jnsX => .jnsX (.ofByte b1)
  | .pushI => .pushI b1
  | .pushR => .pushR b1
  | .pushA => .pushA b1
  | .pushX => .pushX (.ofByte b1)
  | .pop => .pop b1
  | .pushf => .pushf
  | .popf => .popf
  | .callA => .callA b1
  | .callX => .callX (.ofByte b1)
  | .ret => .ret
  | .inp => .inp b1
  | .outp => .outp b1

/-- The opcode variant of an instruction (R58). -/
def Instr.form : Instr → Form
  | .hlt => .hlt
  | .movRR _ _ => .movRR
  | .movRA _ _ => .movRA
  | .movRX _ _ => .movRX
  | .movAR _ _ => .movAR
  | .movXR _ _ => .movXR
  | .movRI _ _ => .movRI
  | .movAI _ _ => .movAI
  | .movXI _ _ => .movXI
  | .movRS _ _ => .movRS
  | .movSR _ _ => .movSR
  | .addI _ _ => .addI
  | .addR _ _ => .addR
  | .addA _ _ => .addA
  | .addX _ _ => .addX
  | .subI _ _ => .subI
  | .subR _ _ => .subR
  | .subA _ _ => .subA
  | .subX _ _ => .subX
  | .inc _ => .inc
  | .dec _ => .dec
  | .neg _ => .neg
  | .mulI _ _ => .mulI
  | .mulR _ _ => .mulR
  | .mulA _ _ => .mulA
  | .mulX _ _ => .mulX
  | .divI _ _ => .divI
  | .divR _ _ => .divR
  | .divA _ _ => .divA
  | .divX _ _ => .divX
  | .cmpI _ _ => .cmpI
  | .cmpR _ _ => .cmpR
  | .cmpA _ _ => .cmpA
  | .cmpX _ _ => .cmpX
  | .andI _ _ => .andI
  | .andR _ _ => .andR
  | .andA _ _ => .andA
  | .andX _ _ => .andX
  | .orI _ _ => .orI
  | .orR _ _ => .orR
  | .orA _ _ => .orA
  | .orX _ _ => .orX
  | .xorI _ _ => .xorI
  | .xorR _ _ => .xorR
  | .xorA _ _ => .xorA
  | .xorX _ _ => .xorX
  | .not _ => .not
  | .shlI _ _ => .shlI
  | .shlR _ _ => .shlR
  | .shlA _ _ => .shlA
  | .shlX _ _ => .shlX
  | .shrI _ _ => .shrI
  | .shrR _ _ => .shrR
  | .shrA _ _ => .shrA
  | .shrX _ _ => .shrX
  | .jmpA _ => .jmpA
  | .jmpX _ => .jmpX
  | .jcA _ => .jcA
  | .jcX _ => .jcX
  | .jncA _ => .jncA
  | .jncX _ => .jncX
  | .jzA _ => .jzA
  | .jzX _ => .jzX
  | .jnzA _ => .jnzA
  | .jnzX _ => .jnzX
  | .joA _ => .joA
  | .joX _ => .joX
  | .jnoA _ => .jnoA
  | .jnoX _ => .jnoX
  | .jsA _ => .jsA
  | .jsX _ => .jsX
  | .jnsA _ => .jnsA
  | .jnsX _ => .jnsX
  | .pushI _ => .pushI
  | .pushR _ => .pushR
  | .pushA _ => .pushA
  | .pushX _ => .pushX
  | .pop _ => .pop
  | .pushf => .pushf
  | .popf => .popf
  | .callA _ => .callA
  | .callX _ => .callX
  | .ret => .ret
  | .inp _ => .inp
  | .outp _ => .outp

/-- The operand bytes of an instruction, in the order they are emitted (R35, R51, R66, R68). -/
def Instr.operandBytes : Instr → List Byte
  | .hlt => []
  | .movRR d r => [d, r]
  | .movRA d a => [d, a]
  | .movRX d x => [d, x.toByte]
  | .movAR a r => [a, r]
  | .movXR x r => [x.toByte, r]
  | .movRI d k => [d, k]
  | .movAI a k => [a, k]
  | .movXI x k => [x.toByte, k]
  | .movRS d o => [d, o]
  | .movSR o r => [o, r]
  | .addI d k => [d, k]
  | .addR d r => [d, r]
  | .addA d a => [d, a]
  | .addX d x => [d, x.toByte]
  | .subI d k => [d, k]
  | .subR d r => [d, r]
  | .subA d a => [d, a]
  | .subX d x => [d, x.toByte]
  | .inc r => [r]
  | .dec r => [r]
  | .neg r => [r]
  | .mulI d k => [d, k]
  | .mulR d r => [d, r]
  | .mulA d a => [d, a]
  | .mulX d x => [d, x.toByte]
  | .divI d k => [d, k]
  | .divR d r => [d, r]
  | .divA d a => [d, a]
  | .divX d x => [d, x.toByte]
  | .cmpI d k => [d, k]
  | .cmpR d r => [d, r]
  | .cmpA d a => [d, a]
  | .cmpX d x => [d, x.toByte]
  | .andI d k => [d, k]
  | .andR d r => [d, r]
  | .andA d a => [d, a]
  | .andX d x => [d, x.toByte]
  | .orI d k => [d, k]
  | .orR d r => [d, r]
  | .orA d a => [d, a]
  | .orX d x => [d, x.toByte]
  | .xorI d k => [d, k]
  | .xorR d r => [d, r]
  | .xorA d a => [d, a]
  | .xorX d x => [d, x.toByte]
  | .not r => [r]
  | .shlI d k => [d, k]
  | .shlR d r => [d, r]
  | .shlA d a => [d, a]
  | .shlX d x => [d, x.toByte]
  | .shrI d k => [d, k]
  | .shrR d r => [d, r]
  | .shrA d a => [d, a]
  | .shrX d x => [d, x.toByte]
  | .jmpA a => [a]
  | .jmpX x => [x.toByte]
  | .jcA a => [a]
  | .jcX x => [x.toByte]
  | .jncA a => [a]
  | .jncX x => [x.toByte]
  | .jzA a => [a]
  | .jzX x => [x.toByte]
  | .jnzA a => [a]
  | .jnzX x => [x.toByte]
  | .joA a => [a]
  | .joX x => [x.toByte]
  | .jnoA a => [a]
  | .jnoX x => [x.toByte]
  | .jsA a => [a]
  | .jsX x => [x.toByte]
  | .jnsA a => [a]
  | .jnsX x => [x.toByte]
  | .pushI k => [k]
  | .pushR r => [r]
  | .pushA a => [a]
  | .pushX x => [x.toByte]
  | .pop r => [r]
  | .pushf => []
  | .popf => []
  | .callA a => [a]
  | .callX x => [x.toByte]
  | .ret => []
  | .inp p => [p]
  | .outp p => [p]

/-- The variant an opcode byte selects, by `OPMAP`; none for 85 to 255 (R58, R60). -/
def formOfOpcode (op : Byte) : Option Form := params.opmap[op.toNat]?

/-- The opcode byte of a variant: its place in `OPMAP` (R58). -/
def Form.opcode (f : Form) : Byte := BitVec.ofNat 8 (params.opmap.idxOf f)

/-- Why bytes are no instruction. -/
inductive DecodeError where
  /-- There is no byte to decode. -/
  | noBytes
  /-- The opcode byte is 85 to 255 (R60). -/
  | invalidOpcode (op : Byte)
  /-- The opcode byte needs more operand bytes than there are (R59). -/
  | missingOperands (op : Byte)
  deriving DecidableEq, Repr

/-- The decoder: the opcode byte alone fixes the variant, its operands and its length (R50, R59); the answer is the
instruction and the bytes after it. -/
def decode : List Byte → Except DecodeError (Instr × List Byte)
  | [] => .error .noBytes
  | op :: rest =>
    match formOfOpcode op with
    | none => .error (.invalidOpcode op)
    | some f =>
      match f.nops, rest with
      | 0, rest => .ok (f.build 0 0, rest)
      | 1, b1 :: rest => .ok (f.build b1 0, rest)
      | 2, b1 :: b2 :: rest => .ok (f.build b1 b2, rest)
      | _, _ => .error (.missingOperands op)

/-- The encoder: the opcode byte, then the operand bytes left to right (R35, R68). -/
def encode (i : Instr) : List Byte := i.form.opcode :: i.operandBytes

/-- The length of an instruction in bytes, 1 + n (R50, R59). -/
def Instr.length (i : Instr) : Nat := 1 + i.form.nops

/-- The byte at bits `8 * k + 7 .. 8 * k` of a table word, bits from `nbits` up being 0. -/
def tableWordByte (nbits w k : Nat) : Byte := BitVec.ofNat 8 (w % 2 ^ nbits / 2 ^ (8 * k))

/-- The three bytes of a table word, the first at the lowest address (R35); 3 is the longest instruction (R50). -/
def tableWordBytes (nbits w : Nat) : List Byte :=
  [tableWordByte nbits w 0, tableWordByte nbits w 1, tableWordByte nbits w 2]

/-- The instruction the decoder reads from a word of spec/opcode_table.json. -/
def decodeTableWord (nbits w : Nat) : Option Instr :=
  match decode (tableWordBytes nbits w) with
  | .ok (i, _) => some i
  | .error _ => none

end Sys2Proof
end

