-- ==== Sys2Proof/Machine/State.lean ====
section
/-! DEFINITION. The state of the machine as plain data (R10 to R18), the reports, events and inputs it holds, the
state after reset (R23, R260, R261), and the reasons a step of the model can stop. -/

namespace Sys2Proof.Machine

/-- The memory M (R18): the cells whose byte differs from the reset contents, addresses strictly rising (log 24). -/
abbrev Memory := List Host.Cell

/-- A fault of the machine and the `info` value its report carries (R230). -/
inductive FaultReport where
  /-- pc outside 0 to 255 at the start of a step; info: pc. -/
  | instructionPointerOutOfBounds (pc : Int)
  /-- The opcode byte is 85 to 255; info: the byte. -/
  | invalidOpcode (op : Byte)
  /-- A memory access outside 0 to 255 (alias MemoryBoundsError, C2); info: the address. -/
  | addressOutOfBounds (addr : Int)
  /-- A Register operand byte of 4 to 255 (D7); info: the byte. -/
  | invalidRegister (b : RegByte)
  /-- DIV by 0; no info. -/
  | divisionByZero
  /-- SP below 0x80 after the decrement of a push; info: SP. -/
  | stackOverflow (sp : Byte)
  /-- SP above 0xBF after the increment of a pop; info: SP. -/
  | stackUnderflow (sp : Byte)
  deriving DecidableEq, Repr

/-- The run state RS (R17). Faulted carries the report that caused it, which a later step delivers again (R233,
D20; log 20). -/
inductive RunState where
  | ready
  | halted
  | faulted (report : FaultReport)
  deriving DecidableEq, Repr

/-- The events at the core's abstract interfaces (R7, R273). -/
inductive Event where
  /-- A store to the display region (R32). -/
  | display (addr : Nat) (value : Byte)
  /-- `PortOut(p, v)` (R220). -/
  | portOut (port value : Byte)
  /-- `PortIn(p)` with the byte the environment answered (R220). -/
  | portIn (port answer : Byte)
  /-- The report delivered to the caller of the step (R231). -/
  | faultRaised (report : FaultReport)
  deriving DecidableEq, Repr

/-- A byte the environment has supplied to a port and the core has not read yet (R220, R244). -/
structure PortAnswer where
  port : Byte
  value : Byte
  deriving DecidableEq, Repr

/-- The whole state: R10 to R18, and the model's own `events`, `inbox` and `draws` (logs 15, 23). -/
structure State where
  /-- General register AL, index 0 (R10). -/
  al : Byte
  /-- General register BL, index 1 (R10). -/
  bl : Byte
  /-- General register CL, index 2 (R10). -/
  cl : Byte
  /-- General register DL, index 3 (R10). -/
  dl : Byte
  /-- The stack pointer (R12). -/
  sp : Byte
  /-- The instruction pointer IP, an unmasked integer (R13, C1, D5; log 5). -/
  pc : Int
  /-- The arithmetic flags (R14). -/
  flags : Flags
  /-- The Fault flag F (R15). -/
  f : Bool
  /-- The run state RS (R17). -/
  rs : RunState
  /-- The memory M (R18). -/
  mem : Memory
  /-- The model's own: the event history, newest first (R220, R273; log 23). -/
  events : List Event
  /-- The model's own: the environment's answers not read yet, oldest first (R220, R244; log 15). -/
  inbox : List PortAnswer
  /-- The model's own: how many free answers have been drawn (R220, D15, U5; log 15). -/
  draws : Nat
  deriving DecidableEq, Repr

/-- The state after the power-on reset, both resets performed (R23, R260, R261). `mem` lists nothing: an unlisted
address reads as the reset contents. `events`, `inbox` and `draws` are the model's own (logs 15, 23). -/
def State.reset : State where
  al := 0
  bl := 0
  cl := 0
  dl := 0
  sp := params.spReset
  pc := params.ipReset
  flags := { c := false, o := false, z := false, s := false }
  f := false
  rs := .ready
  mem := []
  events := []
  inbox := []
  draws := 0

/-- Why the MODEL stops. The machine's own faults (R230) are next states in which RS is Faulted, not these. -/
inductive Fault where
  /-- Raised by `step` when RS is Halted: the core has no step there and only reset leaves it (R224, D13, U1).
  Safe: the model stops where the real machine may do something the source does not state. Log 13. -/
  | stepInHalted
  deriving DecidableEq, Repr

/-- Why the MODEL has no meaning for an instruction. -/
inductive Refusal where
  /-- Raised by an arm of `exec` whose instruction has no meaning yet. Safe. No arm of this model raises it. -/
  | notModelled (mnemonic : String)
  deriving DecidableEq, Repr

end Sys2Proof.Machine
end

