-- ==== Sys2Proof/Machine/Ops.lean ====
section
/-! DEFINITION. The named operations over registers, memory, stack and ports (R6, R31, R32, R200, R201, R220), fault
entry (R231) and the recovery from it (R234, R260). An operation that may raise a fault takes the rest of the
instruction as its last argument: raising abandons that rest (R6 `raise`). -/

namespace Sys2Proof.Machine

/-- What an instruction answers. -/
abbrev Result := Host.Outcome State Fault Refusal

/-! ### Registers -/

/-- `x[r]` (R6, R10). -/
def State.reg (s : State) : Reg → Byte
  | .al => s.al
  | .bl => s.bl
  | .cl => s.cl
  | .dl => s.dl

/-- `x[r] <- v` (R6, R10, R11). -/
def State.setReg (s : State) (r : Reg) (v : Byte) : State :=
  match r with
  | .al => { s with al := v }
  | .bl => { s with bl := v }
  | .cl => { s with cl := v }
  | .dl => { s with dl := v }

/-- `SP <- v`, masked to 8 bits by its type (R6, R11, R12). -/
def State.setSp (s : State) (v : Byte) : State := { s with sp := v }

/-- `pc <- target`, unmasked (R6, R13). -/
def State.setPc (s : State) (target : Int) : State := { s with pc := target }

/-- `next`, the address after the last byte of the instruction: `pc` holds the address of the last byte fetched while
an instruction executes (R6, R13, R62; log 28). -/
def State.next (s : State) : Int := s.pc + 1

/-- `pc <- next` (R62). -/
def State.advance (s : State) : State := s.setPc s.next

/-- The flags written together (R14). -/
def State.setFlags (s : State) (fl : Flags) : State := { s with flags := fl }

/-- `RS <- Halted` (R223). -/
def State.halt (s : State) : State := { s with rs := .halted }

/-- An event is added to the history (R220, R273; log 23). -/
def State.emit (s : State) (e : Event) : State := { s with events := e :: s.events }

/-! ### Fault entry, and the way out -/

/-- The state after fault entry: RS is Faulted, F is 1, the report is delivered; nothing is saved and control goes
nowhere (R231, D8). -/
def State.enterFault (s : State) (r : FaultReport) : State :=
  { s with rs := .faulted r, f := true }.emit (.faultRaised r)

/-- TAKING A FAULT: what was changed before the raise stays, the rest of the instruction is abandoned (R231, R232). -/
def takeFault (r : FaultReport) (s : State) : Result := .next (s.enterFault r)

/-- `CPU.reset()`: the only way out of Faulted and Halted; memory is not touched, and there is no return-from-fault
instruction (R234, R260). The model's own fields are not touched either (log 23). -/
def State.cpuReset (s : State) : State :=
  { s with
    al := 0, bl := 0, cl := 0, dl := 0
    flags := { c := false, o := false, z := false, s := false }
    f := false
    sp := params.spReset
    pc := params.ipReset
    rs := .ready }

/-! ### Memory -/

/-- What an address reads as after a memory reset (R23, R34, R260); an unlisted address of `Memory` reads so. -/
def resetByte (a : Nat) : Byte :=
  if params.displayBase ≤ a ∧ a ≤ params.displayEnd then params.displayFill else 0x00

/-- `M[a]` (R18). -/
def Memory.read : Memory → Nat → Byte
  | [], a => resetByte a
  | (b, v) :: rest, a => if a = b then v else Memory.read rest a

/-- The memory without its entry at `a`. -/
def Memory.drop (m : Memory) (a : Nat) : Memory := m.filter fun cell => decide (cell.1 ≠ a)

/-- The memory with an entry put at its place in the rising order of addresses. -/
def Memory.insert : Memory → Nat → Byte → Memory
  | [], a, v => [(a, v)]
  | (b, w) :: rest, a, v => if a < b then (a, v) :: (b, w) :: rest else (b, w) :: Memory.insert rest a v

/-- `M[a] <- v` (R18): in canonical form, so that writing what the address reads as at reset removes its entry. -/
def Memory.write (m : Memory) (a : Nat) (v : Byte) : Memory :=
  if v = resetByte a then m.drop a else (m.drop a).insert a v

/-- The canonical form: addresses strictly rising and inside the memory, and no entry equal to the reset contents. -/
abbrev Memory.wf (m : Memory) : Prop :=
  m.Pairwise (fun x y => x.1 < y.1) ∧ ∀ cell ∈ m, cell.1 < params.memSize ∧ cell.2 ≠ resetByte cell.1

/-- The bounds check: an address is in the memory space when it is 0 to 255; addresses are exact integers, never
reduced modulo 256 (R31, R32, R33, D6; log 6). -/
def inMemory (addr : Int) : Bool := decide (0 ≤ addr) && decide (addr < params.memSize)

/-- M at an integer address (R31); meant for addresses in memory. -/
def State.load (s : State) (addr : Int) : Byte := s.mem.read addr.toNat

/-- The state change of a store that passed the bounds check: the byte is written and, in the display region, the
event `Display` is emitted (R32, D28). -/
def State.store (s : State) (addr : Int) (v : Byte) : State :=
  let s1 := { s with mem := s.mem.write addr.toNat v }
  if params.displayBase ≤ addr.toNat ∧ addr.toNat ≤ params.displayEnd then s1.emit (.display addr.toNat v) else s1

/-- `MemRead(addr, 1)` (R31). -/
def withRead (addr : Int) (s : State) (k : Byte → Result) : Result :=
  if inMemory addr then k (s.load addr) else takeFault (.addressOutOfBounds addr) s

/-- `MemWrite(addr, 1, v)` (R32). -/
def withWrite (addr : Int) (v : Byte) (s : State) (k : State → Result) : Result :=
  if inMemory addr then k (s.store addr v) else takeFault (.addressOutOfBounds addr) s

/-! ### Stack -/

/-- `Push(v)`: store at SP, decrement SP, then check (R200, R46). -/
def withPush (v : Byte) (s : State) (k : State → Result) : Result :=
  withWrite s.sp.toNat v s fun s1 =>
    let s2 := s1.setSp (s1.sp - 1)
    if s2.sp.toNat < params.spMin then takeFault (.stackOverflow s2.sp) s2 else k s2

/-- `Pop()`: increment SP, read at the new SP, then check before the value is used (R201, R46, D12). -/
def withPop (s : State) (k : Byte → State → Result) : Result :=
  let s1 := s.setSp (s.sp + 1)
  withRead s1.sp.toNat s1 fun v =>
    if params.spMax < s1.sp.toNat then takeFault (.stackUnderflow s1.sp) s1 else k v s1

/-! ### Ports -/

/-- The oldest answer supplied for a port, and the answers left (log 15). -/
def takeAnswer (port : Byte) : List PortAnswer → Option (Byte × List PortAnswer)
  | [] => none
  | a :: rest =>
    if a.port = port then some (a.value, rest)
    else (takeAnswer port rest).map fun found => (found.1, a :: found.2)

/-- `PortIn(p)` (R220): the oldest byte supplied for the port; where none was, the keyboard has not answered yet
(`none`) and any other port answers a byte that nothing constrains (D15, U5; log 15). -/
def State.portIn (s : State) (port : Byte) : Option (Byte × State) :=
  match takeAnswer port s.inbox with
  | some (v, rest) => some (v, { s with inbox := rest }.emit (.portIn port v))
  | none =>
    if port = params.portKeyboard then none
    else
      let v := Config.portAnswer port s.draws
      some (v, { s with draws := s.draws + 1 }.emit (.portIn port v))

/-- `PortOut(p, v)`: an event, with no effect on any state of the core (R220). -/
def State.portOut (s : State) (port v : Byte) : State := s.emit (.portOut port v)

/-- The hold of a blocking IN: the state as it was before the step, `pc` again at the opcode byte of this two-byte
instruction (R221, R243; log 16). -/
def State.hold (s : State) : State := s.setPc (s.pc - 1)

end Sys2Proof.Machine
end

