-- ==== Sys2Proof/Machine/Flags.lean ====
section
/-! DEFINITION. The results and flags of the ALU (R100 to R163), and the packing of the status byte (R16, R208).
Results are computed in exact integers; C and O come from the exact result and the operands, Z and S from the low
8 bits (R100, C5). -/

namespace Sys2Proof.Machine

/-- `t[7:0]`, two's complement when `t` is negative (R5). -/
def low (t : Int) : Byte := BitVec.ofInt 8 t

/-- `v[7]`, the sign bit of a byte (R5). -/
def bit7 (v : Byte) : Bool := v.msb

/-- A result and the flags written with it. -/
structure AluResult where
  value : Byte
  flags : Flags
  deriving DecidableEq, Repr

/-- The masked result of the exact `t`, with the given C and O and with Z and S by `SetZS(t)` (R100). -/
def aluResult (t : Int) (c o : Bool) : AluResult :=
  { value := low t, flags := { c := c, o := o, z := decide (low t = 0), s := bit7 (low t) } }

/-- ADD (R101 to R104). -/
def aluAdd (a b : Byte) : AluResult :=
  let t : Int := a.toNat + b.toNat
  aluResult t (decide (t > 0xFF)) (decide (bit7 a = bit7 b) && decide (bit7 (low t) ≠ bit7 a))

/-- SUB and CMP: C is the unsigned borrow (R105 to R108, R130). -/
def aluSub (a b : Byte) : AluResult :=
  let t : Int := (a.toNat : Int) - b.toNat
  aluResult t (decide (a.toNat < b.toNat)) (decide (bit7 a ≠ bit7 b) && decide (bit7 (low t) ≠ bit7 a))

/-- INC (R109). -/
def aluInc (a : Byte) : AluResult := aluResult (a.toNat + 1) (decide (a = 0xFF)) (decide (a = 0x7F))

/-- DEC: C keeps the value it had (R110). -/
def aluDec (a : Byte) (c : Bool) : AluResult := aluResult ((a.toNat : Int) - 1) c (decide (a = 0x80))

/-- NEG (R111). -/
def aluNeg (a : Byte) : AluResult := aluResult (0 - (a.toNat : Int)) (decide (a ≠ 0)) (decide (a = 0x80))

/-- MUL, unsigned, the high byte discarded (R112 to R115, R122, D10). -/
def aluMul (a b : Byte) : AluResult :=
  let t : Int := a.toNat * b.toNat
  aluResult t (decide (t > 0xFF)) (decide (t > 0xFF))

/-- DIV by a divisor that is not 0, unsigned, the remainder discarded (R116 to R119, R123, D10). -/
def aluDiv (a b : Byte) : AluResult := aluResult ((a.toNat / b.toNat : Nat) : Int) false false

/-- AND (R142 to R145). -/
def aluAnd (a b : Byte) : AluResult := aluResult (a &&& b).toNat false false

/-- OR (R146 to R149). -/
def aluOr (a b : Byte) : AluResult := aluResult (a ||| b).toNat false false

/-- XOR (R150 to R153). -/
def aluXor (a b : Byte) : AluResult := aluResult (a ^^^ b).toNat false false

/-- NOT (R154). -/
def aluNot (a : Byte) : AluResult := aluResult (0xFF - (a.toNat : Int)) false false

/-- SHL by an amount that is not 0: C is bit 7 of the original operand shifted left by the amount less 1 (R141, R155
to R158). `shiftCount` is the open parameter `SHIFT_WIDE` (D11, U4; log 11). -/
def aluShl (a b : Byte) : AluResult :=
  let carried := a.toNat <<< params.shiftCount (b.toNat - 1)
  aluResult ((a.toNat <<< params.shiftCount b.toNat : Nat) : Int) (carried.testBit 7) false

/-- SHR by an amount that is not 0: C is bit 0 of the original operand shifted right by the amount less 1 (R141, R159
to R162). -/
def aluShr (a b : Byte) : AluResult :=
  let carried := a.toNat >>> params.shiftCount (b.toNat - 1)
  aluResult ((a.toNat >>> params.shiftCount b.toNat : Nat) : Int) (carried.testBit 0) false

/-- The status byte: `SR = F + 2*C + 4*O + 8*Z + 16*S`, bits 7 to 5 read as 0 (R16, D8; log 8). -/
def State.sr (s : State) : Byte :=
  BitVec.ofNat 8
    (s.f.toNat + 2 * s.flags.c.toNat + 4 * s.flags.o.toNat + 8 * s.flags.z.toNat + 16 * s.flags.s.toNat)

/-- The flags POPF takes from a popped byte (R208). -/
def flagsOfByte (v : Byte) : Flags :=
  { c := v.getLsbD 1, o := v.getLsbD 2, z := v.getLsbD 3, s := v.getLsbD 4 }

/-- POPF's write: C, O, Z, S from bits 1 to 4; what bit 0 does is the open parameter `POPF_RESERVED`, which this
hardware sets to ignore; bits 5 to 7 have no flag (R208, D8, U3; log 8). -/
def State.loadFlags (s : State) (v : Byte) : State :=
  match params.popfReserved with
  | .ignore => s.setFlags (flagsOfByte v)
  | .loadFault => { s.setFlags (flagsOfByte v) with f := v.getLsbD 0 }

/-- Whether a conditional jump is taken (R171, `CONDMAP`). -/
def State.taken (s : State) (cond : Cond) : Bool := params.condmap cond s.flags

end Sys2Proof.Machine
end

