-- ==== Sys2Proof/Machine/Operands.lean ====
section
/-! DEFINITION. The operand forms: register validation (R52), effective addresses (R45, R53, R56), the four source
forms of the two-operand ALU instructions (R100), and what those instructions do with their operands. -/

namespace Sys2Proof.Machine

/-- `Reg(b)`: a Register operand byte of 4 to 255 raises InvalidRegister (R52, D7; log 7). -/
def withReg (b : RegByte) (s : State) (k : Reg → Result) : Result :=
  match Reg.ofIndex? b.toNat with
  | some r => k r
  | none => takeFault (.invalidRegister b) s

/-- The base of a RegisterIndirect operand: a general register for a register field of 0 to 3, SP for 4 to 7 (R53,
U6; log 26). -/
def State.base (s : State) (x : Indirect) : Byte :=
  match Reg.ofIndex? x.reg.toNat with
  | some r => s.reg r
  | none => s.sp

/-- `EA_ind(v)`: base plus signed 5-bit offset, an integer, not masked (R53). -/
def State.eaInd (s : State) (x : Indirect) : Int := (s.base x).toNat + x.off.toInt

/-- `EA_sp(o)`: SP plus signed 8-bit offset, an integer, not masked (R56). -/
def State.eaSp (s : State) (o : Byte) : Int := s.sp.toNat + o.toInt

/-! ### The four source forms of a two-operand ALU instruction

Each validates the destination and reads its value, evaluates the second operand, and hands destination, first and
second operand on (R100, D12). -/

/-- Second operand an Immediate (R55). -/
def withImmediate (b1 : RegByte) (k : Byte) (s : State) (body : Reg → Byte → Byte → Result) : Result :=
  withReg b1 s fun d => body d (s.reg d) k

/-- Second operand a Register (R52). -/
def withRegister (b1 b2 : RegByte) (s : State) (body : Reg → Byte → Byte → Result) : Result :=
  withReg b1 s fun d => withReg b2 s fun r => body d (s.reg d) (s.reg r)

/-- Second operand the memory byte at a DirectAddress (R54). -/
def withDirect (b1 : RegByte) (a : Byte) (s : State) (body : Reg → Byte → Byte → Result) : Result :=
  withReg b1 s fun d => withRead a.toNat s fun b => body d (s.reg d) b

/-- Second operand the memory byte at a RegisterIndirect address (R53). -/
def withIndirect (b1 : RegByte) (x : Indirect) (s : State) (body : Reg → Byte → Byte → Result) : Result :=
  withReg b1 s fun d => withRead (s.eaInd x) s fun b => body d (s.reg d) b

/-! ### What is done with the result -/

/-- Write the flags and the masked result, then `pc <- next` (R100). -/
def writeResult (d : Reg) (r : AluResult) (s : State) : Result :=
  .next ((s.setFlags r.flags).setReg d r.value).advance

/-- Write the flags only, then `pc <- next` (R130). -/
def writeFlags (r : AluResult) (s : State) : Result := .next (s.setFlags r.flags).advance

/-- Write one register and no flag, then `pc <- next` (R80, R206). -/
def writeReg (d : Reg) (v : Byte) (s : State) : Result := .next (s.setReg d v).advance

/-- A division: a divisor of 0 raises DivisionByZero before anything is written (R116 to R119, R121). -/
def divideInto (d : Reg) (a b : Byte) (s : State) : Result :=
  if b = 0 then takeFault .divisionByZero s else writeResult d (aluDiv a b) s

/-- A shift: an amount of 0 writes no register and no flag (R141, R155 to R162). -/
def shiftInto (shift : Byte → Byte → AluResult) (d : Reg) (a b : Byte) (s : State) : Result :=
  if b = 0 then .next s.advance else writeResult d (shift a b) s

/-- A jump: to the target when taken, else `pc <- next`; no memory is read and the target is not checked (R170, D5,
D18; log 18). -/
def jumpIf (taken : Bool) (target : Int) (s : State) : Result :=
  if taken then .next (s.setPc target) else .next s.advance

end Sys2Proof.Machine
end

