-- ==== Sys2Proof/Machine/Arithmetic.lean ====
section
/-! DEFINITION. The meanings of ADD, SUB, INC, DEC, NEG, MUL and DIV (R100 to R124). -/

namespace Sys2Proof.Machine

/-- `ADD reg,byte` (R101). -/
def execAddI (d : RegByte) (k : Byte) (s : State) : Result :=
  withImmediate d k s fun dst v w => writeResult dst (aluAdd v w) s

/-- `ADD reg,reg` (R102). -/
def execAddR (d : RegByte) (r : RegByte) (s : State) : Result :=
  withRegister d r s fun dst v w => writeResult dst (aluAdd v w) s

/-- `ADD reg,[addr]` (R103). -/
def execAddA (d : RegByte) (a : Byte) (s : State) : Result :=
  withDirect d a s fun dst v w => writeResult dst (aluAdd v w) s

/-- `ADD reg,[reg]` (R104). -/
def execAddX (d : RegByte) (x : Indirect) (s : State) : Result :=
  withIndirect d x s fun dst v w => writeResult dst (aluAdd v w) s

/-- `SUB reg,byte` (R105). -/
def execSubI (d : RegByte) (k : Byte) (s : State) : Result :=
  withImmediate d k s fun dst v w => writeResult dst (aluSub v w) s

/-- `SUB reg,reg` (R106). -/
def execSubR (d : RegByte) (r : RegByte) (s : State) : Result :=
  withRegister d r s fun dst v w => writeResult dst (aluSub v w) s

/-- `SUB reg,[addr]` (R107). -/
def execSubA (d : RegByte) (a : Byte) (s : State) : Result :=
  withDirect d a s fun dst v w => writeResult dst (aluSub v w) s

/-- `SUB reg,[reg]` (R108). -/
def execSubX (d : RegByte) (x : Indirect) (s : State) : Result :=
  withIndirect d x s fun dst v w => writeResult dst (aluSub v w) s

/-- `INC reg` (R109). -/
def execInc (r : RegByte) (s : State) : Result :=
  withReg r s fun dst => writeResult dst (aluInc (s.reg dst)) s

/-- `DEC reg` (R110). -/
def execDec (r : RegByte) (s : State) : Result :=
  withReg r s fun dst => writeResult dst (aluDec (s.reg dst) s.flags.c) s

/-- `NEG reg` (R111). -/
def execNeg (r : RegByte) (s : State) : Result :=
  withReg r s fun dst => writeResult dst (aluNeg (s.reg dst)) s

/-- `MUL reg,byte` (R112). -/
def execMulI (d : RegByte) (k : Byte) (s : State) : Result :=
  withImmediate d k s fun dst v w => writeResult dst (aluMul v w) s

/-- `MUL reg,reg` (R113). -/
def execMulR (d : RegByte) (r : RegByte) (s : State) : Result :=
  withRegister d r s fun dst v w => writeResult dst (aluMul v w) s

/-- `MUL reg,[addr]` (R114). -/
def execMulA (d : RegByte) (a : Byte) (s : State) : Result :=
  withDirect d a s fun dst v w => writeResult dst (aluMul v w) s

/-- `MUL reg,[reg]` (R115). -/
def execMulX (d : RegByte) (x : Indirect) (s : State) : Result :=
  withIndirect d x s fun dst v w => writeResult dst (aluMul v w) s

/-- `DIV reg,byte` (R116). -/
def execDivI (d : RegByte) (k : Byte) (s : State) : Result :=
  withImmediate d k s fun dst v w => divideInto dst v w s

/-- `DIV reg,reg` (R117). -/
def execDivR (d : RegByte) (r : RegByte) (s : State) : Result :=
  withRegister d r s fun dst v w => divideInto dst v w s

/-- `DIV reg,[addr]` (R118). -/
def execDivA (d : RegByte) (a : Byte) (s : State) : Result :=
  withDirect d a s fun dst v w => divideInto dst v w s

/-- `DIV reg,[reg]` (R119). -/
def execDivX (d : RegByte) (x : Indirect) (s : State) : Result :=
  withIndirect d x s fun dst v w => divideInto dst v w s

end Sys2Proof.Machine
end

