-- ==== Sys2Proof/Machine/Comparison.lean ====
section
/-! DEFINITION. The meanings of CMP: SUB without the write-back (R130 to R134). -/

namespace Sys2Proof.Machine

/-- `CMP reg,byte` (R131). -/
def execCmpI (d : RegByte) (k : Byte) (s : State) : Result :=
  withImmediate d k s fun _ v w => writeFlags (aluSub v w) s

/-- `CMP reg,reg` (R132). -/
def execCmpR (d : RegByte) (r : RegByte) (s : State) : Result :=
  withRegister d r s fun _ v w => writeFlags (aluSub v w) s

/-- `CMP reg,[addr]` (R133). -/
def execCmpA (d : RegByte) (a : Byte) (s : State) : Result :=
  withDirect d a s fun _ v w => writeFlags (aluSub v w) s

/-- `CMP reg,[reg]` (R134). -/
def execCmpX (d : RegByte) (x : Indirect) (s : State) : Result :=
  withIndirect d x s fun _ v w => writeFlags (aluSub v w) s

end Sys2Proof.Machine
end

