-- ==== Sys2Proof/Machine/ControlFlow.lean ====
section
/-! DEFINITION. The meanings of JMP and of the conditional jumps (R170 to R190). -/

namespace Sys2Proof.Machine

/-- `JMP addr` (R172). -/
def execJmpA (a : Byte) (s : State) : Result :=
  jumpIf true a.toNat s

/-- `JMP [reg]` (R173). -/
def execJmpX (x : Indirect) (s : State) : Result :=
  jumpIf true (s.eaInd x) s

/-- `JC addr` (R174). -/
def execJcA (a : Byte) (s : State) : Result :=
  jumpIf (s.taken .jc) a.toNat s

/-- `JC [reg]` (R175). -/
def execJcX (x : Indirect) (s : State) : Result :=
  jumpIf (s.taken .jc) (s.eaInd x) s

/-- `JNC addr` (R176). -/
def execJncA (a : Byte) (s : State) : Result :=
  jumpIf (s.taken .jnc) a.toNat s

/-- `JNC [reg]` (R177). -/
def execJncX (x : Indirect) (s : State) : Result :=
  jumpIf (s.taken .jnc) (s.eaInd x) s

/-- `JZ addr (alias JE)` (R178). -/
def execJzA (a : Byte) (s : State) : Result :=
  jumpIf (s.taken .jz) a.toNat s

/-- `JZ [reg] (alias JE)` (R179). -/
def execJzX (x : Indirect) (s : State) : Result :=
  jumpIf (s.taken .jz) (s.eaInd x) s

/-- `JNZ addr (alias JNE)` (R180). -/
def execJnzA (a : Byte) (s : State) : Result :=
  jumpIf (s.taken .jnz) a.toNat s

/-- `JNZ [reg] (alias JNE)` (R181). -/
def execJnzX (x : Indirect) (s : State) : Result :=
  jumpIf (s.taken .jnz) (s.eaInd x) s

/-- `JO addr` (R182). -/
def execJoA (a : Byte) (s : State) : Result :=
  jumpIf (s.taken .jo) a.toNat s

/-- `JO [reg]` (R183). -/
def execJoX (x : Indirect) (s : State) : Result :=
  jumpIf (s.taken .jo) (s.eaInd x) s

/-- `JNO addr` (R184). -/
def execJnoA (a : Byte) (s : State) : Result :=
  jumpIf (s.taken .jno) a.toNat s

/-- `JNO [reg]` (R185). -/
def execJnoX (x : Indirect) (s : State) : Result :=
  jumpIf (s.taken .jno) (s.eaInd x) s

/-- `JS addr` (R186). -/
def execJsA (a : Byte) (s : State) : Result :=
  jumpIf (s.taken .js) a.toNat s

/-- `JS [reg]` (R187). -/
def execJsX (x : Indirect) (s : State) : Result :=
  jumpIf (s.taken .js) (s.eaInd x) s

/-- `JNS addr` (R188). -/
def execJnsA (a : Byte) (s : State) : Result :=
  jumpIf (s.taken .jns) a.toNat s

/-- `JNS [reg]` (R189). -/
def execJnsX (x : Indirect) (s : State) : Result :=
  jumpIf (s.taken .jns) (s.eaInd x) s

end Sys2Proof.Machine
end

