-- ==== Sys2Proof/Machine/DataMovement.lean ====
section
/-! DEFINITION. The meanings of MOV, ten variants; MOV writes no flag (R80 to R91, D9; log 9). A Register byte is
validated before any data access, destination first (R80, D12; log 12). -/

namespace Sys2Proof.Machine

/-- `MOV reg,reg` (R81). -/
def execMovRR (d r : RegByte) (s : State) : Result :=
  withReg d s fun dst => withReg r s fun src => writeReg dst (s.reg src) s

/-- `MOV reg,[addr]` (R82). -/
def execMovRA (d : RegByte) (a : Byte) (s : State) : Result :=
  withReg d s fun dst => withRead a.toNat s fun v => writeReg dst v s

/-- `MOV reg,[reg]` (R83). -/
def execMovRX (d : RegByte) (x : Indirect) (s : State) : Result :=
  withReg d s fun dst => withRead (s.eaInd x) s fun v => writeReg dst v s

/-- `MOV [addr],reg` (R84). -/
def execMovAR (a : Byte) (r : RegByte) (s : State) : Result :=
  withReg r s fun src => withWrite a.toNat (s.reg src) s fun s1 => .next s1.advance

/-- `MOV [reg],reg` (R85). -/
def execMovXR (x : Indirect) (r : RegByte) (s : State) : Result :=
  withReg r s fun src => withWrite (s.eaInd x) (s.reg src) s fun s1 => .next s1.advance

/-- `MOV reg,byte` (R86). -/
def execMovRI (d : RegByte) (k : Byte) (s : State) : Result :=
  withReg d s fun dst => writeReg dst k s

/-- `MOV [addr],byte` (R87). -/
def execMovAI (a k : Byte) (s : State) : Result :=
  withWrite a.toNat k s fun s1 => .next s1.advance

/-- `MOV [reg],byte` (R88). -/
def execMovXI (x : Indirect) (k : Byte) (s : State) : Result :=
  withWrite (s.eaInd x) k s fun s1 => .next s1.advance

/-- `MOV reg,[SP+off]` (R89). -/
def execMovRS (d : RegByte) (o : Byte) (s : State) : Result :=
  withReg d s fun dst => withRead (s.eaSp o) s fun v => writeReg dst v s

/-- `MOV [SP+off],reg` (R90). -/
def execMovSR (o : Byte) (r : RegByte) (s : State) : Result :=
  withReg r s fun src => withWrite (s.eaSp o) (s.reg src) s fun s1 => .next s1.advance

end Sys2Proof.Machine
end

