-- ==== Sys2Proof/Machine/InputOutput.lean ====
section
/-! DEFINITION. The meanings of IN, OUT and HLT (R220 to R226). -/

namespace Sys2Proof.Machine

/-- `IN port`: AL takes the environment's answer; while the keyboard has none the core makes no progress and no state
changes (R221, R243; logs 15, 16). -/
def execInp (p : Byte) (s : State) : Result :=
  match s.portIn p with
  | some (v, s1) => writeReg .al v s1
  | none => .next s.hold

/-- `OUT port`: AL is presented at the port; an unrecognised port is no fault (R222). -/
def execOutp (p : Byte) (s : State) : Result :=
  .next (s.portOut p (s.reg .al)).advance

/-- `HLT` (R223). -/
def execHlt (s : State) : Result :=
  .next s.halt.advance

end Sys2Proof.Machine
end

