-- ==== Sys2Proof/Machine/Logical.lean ====
section
/-! DEFINITION. The meanings of AND, OR, XOR, NOT, SHL and SHR (R140 to R163). -/

namespace Sys2Proof.Machine

/-- `AND reg,byte` (R142). -/
def execAndI (d : RegByte) (k : Byte) (s : State) : Result :=
  withImmediate d k s fun dst v w => writeResult dst (aluAnd v w) s

/-- `AND reg,reg` (R143). -/
def execAndR (d : RegByte) (r : RegByte) (s : State) : Result :=
  withRegister d r s fun dst v w => writeResult dst (aluAnd v w) s

/-- `AND reg,[addr]` (R144). -/
def execAndA (d : RegByte) (a : Byte) (s : State) : Result :=
  withDirect d a s fun dst v w => writeResult dst (aluAnd v w) s

/-- `AND reg,[reg]` (R145). -/
def execAndX (d : RegByte) (x : Indirect) (s : State) : Result :=
  withIndirect d x s fun dst v w => writeResult dst (aluAnd v w) s

/-- `OR reg,byte` (R146). -/
def execOrI (d : RegByte) (k : Byte) (s : State) : Result :=
  withImmediate d k s fun dst v w => writeResult dst (aluOr v w) s

/-- `OR reg,reg` (R147). -/
def execOrR (d : RegByte) (r : RegByte) (s : State) : Result :=
  withRegister d r s fun dst v w => writeResult dst (aluOr v w) s

/-- `OR reg,[addr]` (R148). -/
def execOrA (d : RegByte) (a : Byte) (s : State) : Result :=
  withDirect d a s fun dst v w => writeResult dst (aluOr v w) s

/-- `OR reg,[reg]` (R149). -/
def execOrX (d : RegByte) (x : Indirect) (s : State) : Result :=
  withIndirect d x s fun dst v w => writeResult dst (aluOr v w) s

/-- `XOR reg,byte` (R150). -/
def execXorI (d : RegByte) (k : Byte) (s : State) : Result :=
  withImmediate d k s fun dst v w => writeResult dst (aluXor v w) s

/-- `XOR reg,reg` (R151). -/
def execXorR (d : RegByte) (r : RegByte) (s : State) : Result :=
  withRegister d r s fun dst v w => writeResult dst (aluXor v w) s

/-- `XOR reg,[addr]` (R152). -/
def execXorA (d : RegByte) (a : Byte) (s : State) : Result :=
  withDirect d a s fun dst v w => writeResult dst (aluXor v w) s

/-- `XOR reg,[reg]` (R153). -/
def execXorX (d : RegByte) (x : Indirect) (s : State) : Result :=
  withIndirect d x s fun dst v w => writeResult dst (aluXor v w) s

/-- `NOT reg` (R154). -/
def execNot (r : RegByte) (s : State) : Result :=
  withReg r s fun dst => writeResult dst (aluNot (s.reg dst)) s

/-- `SHL reg,byte` (R155). -/
def execShlI (d : RegByte) (k : Byte) (s : State) : Result :=
  withImmediate d k s fun dst v w => shiftInto aluShl dst v w s

/-- `SHL reg,reg` (R156). -/
def execShlR (d : RegByte) (r : RegByte) (s : State) : Result :=
  withRegister d r s fun dst v w => shiftInto aluShl dst v w s

/-- `SHL reg,[addr]` (R157). -/
def execShlA (d : RegByte) (a : Byte) (s : State) : Result :=
  withDirect d a s fun dst v w => shiftInto aluShl dst v w s

/-- `SHL reg,[reg]` (R158). -/
def execShlX (d : RegByte) (x : Indirect) (s : State) : Result :=
  withIndirect d x s fun dst v w => shiftInto aluShl dst v w s

/-- `SHR reg,byte` (R159). -/
def execShrI (d : RegByte) (k : Byte) (s : State) : Result :=
  withImmediate d k s fun dst v w => shiftInto aluShr dst v w s

/-- `SHR reg,reg` (R160). -/
def execShrR (d : RegByte) (r : RegByte) (s : State) : Result :=
  withRegister d r s fun dst v w => shiftInto aluShr dst v w s

/-- `SHR reg,[addr]` (R161). -/
def execShrA (d : RegByte) (a : Byte) (s : State) : Result :=
  withDirect d a s fun dst v w => shiftInto aluShr dst v w s

/-- `SHR reg,[reg]` (R162). -/
def execShrX (d : RegByte) (x : Indirect) (s : State) : Result :=
  withIndirect d x s fun dst v w => shiftInto aluShr dst v w s

end Sys2Proof.Machine
end

