-- ==== Sys2Proof/Machine/Stack.lean ====
section
/-! DEFINITION. The meanings of PUSH, POP, PUSHF and POPF (R200 to R210). -/

namespace Sys2Proof.Machine

/-- `PUSH byte` (R202). -/
def execPushI (k : Byte) (s : State) : Result :=
  withPush k s fun s1 => .next s1.advance

/-- `PUSH reg` (R203). -/
def execPushR (r : RegByte) (s : State) : Result :=
  withReg r s fun src => withPush (s.reg src) s fun s1 => .next s1.advance

/-- `PUSH [addr]`: the source is read before the stack is written (R204). -/
def execPushA (a : Byte) (s : State) : Result :=
  withRead a.toNat s fun v => withPush v s fun s1 => .next s1.advance

/-- `PUSH [reg]`: the address uses SP as it is before the push (R205, U7; log 19). -/
def execPushX (x : Indirect) (s : State) : Result :=
  withRead (s.eaInd x) s fun v => withPush v s fun s1 => .next s1.advance

/-- `POP reg`: the register byte is validated before SP moves (R206, D12). -/
def execPop (r : RegByte) (s : State) : Result :=
  withReg r s fun dst => withPop s fun v s1 => writeReg dst v s1

/-- `PUSHF` (R207). -/
def execPushf (s : State) : Result :=
  withPush s.sr s fun s1 => .next s1.advance

/-- `POPF` (R208). -/
def execPopf (s : State) : Result :=
  withPop s fun v s1 => .next (s1.loadFlags v).advance

end Sys2Proof.Machine
end

