-- ==== Sys2Proof/Machine/Subroutine.lean ====
section
/-! DEFINITION. The meanings of CALL and RET (R215 to R218). -/

namespace Sys2Proof.Machine

/-- `CALL addr`: push the low byte of `next`, then jump (R215). -/
def execCallA (a : Byte) (s : State) : Result :=
  withPush (low s.next) s fun s1 => .next (s1.setPc a.toNat)

/-- `CALL [reg]`: the target is computed before the push (R216, D19, U7; log 19). -/
def execCallX (x : Indirect) (s : State) : Result :=
  let t := s.eaInd x
  withPush (low s.next) s fun s1 => .next (s1.setPc t)

/-- `RET` (R217). -/
def execRet (s : State) : Result :=
  withPop s fun v s1 => .next (s1.setPc v.toNat)

end Sys2Proof.Machine
end

