-- ==== Sys2Proof/Machine/Dispatch.lean ====
section
/-! DEFINITION. One arm per instruction, each one direct call of its meaning (R58). -/

namespace Sys2Proof.Machine

def exec (i : Instr) (s : State) : Host.Outcome State Fault Refusal :=
  match i with
  | .hlt => Sys2Proof.Machine.execHlt s
  | .movRR d r => Sys2Proof.Machine.execMovRR d r s
  | .movRA d a => Sys2Proof.Machine.execMovRA d a s
  | .movRX d x => Sys2Proof.Machine.execMovRX d x s
  | .movAR a r => Sys2Proof.Machine.execMovAR a r s
  | .movXR x r => Sys2Proof.Machine.execMovXR x r s
  | .movRI d k => Sys2Proof.Machine.execMovRI d k s
  | .movAI a k => Sys2Proof.Machine.execMovAI a k s
  | .movXI x k => Sys2Proof.Machine.execMovXI x k s
  | .movRS d o => Sys2Proof.Machine.execMovRS d o s
  | .movSR o r => Sys2Proof.Machine.execMovSR o r s
  | .addI d k => Sys2Proof.Machine.execAddI d k s
  | .addR d r => Sys2Proof.Machine.execAddR d r s
  | .addA d a => Sys2Proof.Machine.execAddA d a s
  | .addX d x => Sys2Proof.Machine.execAddX d x s
  | .subI d k => Sys2Proof.Machine.execSubI d k s
  | .subR d r => Sys2Proof.Machine.execSubR d r s
  | .subA d a => Sys2Proof.Machine.execSubA d a s
  | .subX d x => Sys2Proof.Machine.execSubX d x s
  | .inc r => Sys2Proof.Machine.execInc r s
  | .dec r => Sys2Proof.Machine.execDec r s
  | .neg r => Sys2Proof.Machine.execNeg r s
  | .mulI d k => Sys2Proof.Machine.execMulI d k s
  | .mulR d r => Sys2Proof.Machine.execMulR d r s
  | .mulA d a => Sys2Proof.Machine.execMulA d a s
  | .mulX d x => Sys2Proof.Machine.execMulX d x s
  | .divI d k => Sys2Proof.Machine.execDivI d k s
  | .divR d r => Sys2Proof.Machine.execDivR d r s
  | .divA d a => Sys2Proof.Machine.execDivA d a s
  | .divX d x => Sys2Proof.Machine.execDivX d x s
  | .cmpI d k => Sys2Proof.Machine.execCmpI d k s
  | .cmpR d r => Sys2Proof.Machine.execCmpR d r s
  | .cmpA d a => Sys2Proof.Machine.execCmpA d a s
  | .cmpX d x => Sys2Proof.Machine.execCmpX d x s
  | .andI d k => Sys2Proof.Machine.execAndI d k s
  | .andR d r => Sys2Proof.Machine.execAndR d r s
  | .andA d a => Sys2Proof.Machine.execAndA d a s
  | .andX d x => Sys2Proof.Machine.execAndX d x s
  | .orI d k => Sys2Proof.Machine.execOrI d k s
  | .orR d r => Sys2Proof.Machine.execOrR d r s
  | .orA d a => Sys2Proof.Machine.execOrA d a s
  | .orX d x => Sys2Proof.Machine.execOrX d x s
  | .xorI d k => Sys2Proof.Machine.execXorI d k s
  | .xorR d r => Sys2Proof.Machine.execXorR d r s
  | .xorA d a => Sys2Proof.Machine.execXorA d a s
  | .xorX d x => Sys2Proof.Machine.execXorX d x s
  | .not r => Sys2Proof.Machine.execNot r s
  | .shlI d k => Sys2Proof.Machine.execShlI d k s
  | .shlR d r => Sys2Proof.Machine.execShlR d r s
  | .shlA d a => Sys2Proof.Machine.execShlA d a s
  | .shlX d x => Sys2Proof.Machine.execShlX d x s
  | .shrI d k => Sys2Proof.Machine.execShrI d k s
  | .shrR d r => Sys2Proof.Machine.execShrR d r s
  | .shrA d a => Sys2Proof.Machine.execShrA d a s
  | .shrX d x => Sys2Proof.Machine.execShrX d x s
  | .jmpA a => Sys2Proof.Machine.execJmpA a s
  | .jmpX x => Sys2Proof.Machine.execJmpX x s
  | .jcA a => Sys2Proof.Machine.execJcA a s
  | .jcX x => Sys2Proof.Machine.execJcX x s
  | .jncA a => Sys2Proof.Machine.execJncA a s
  | .jncX x => Sys2Proof.Machine.execJncX x s
  | .jzA a => Sys2Proof.Machine.execJzA a s
  | .jzX x => Sys2Proof.Machine.execJzX x s
  | .jnzA a => Sys2Proof.Machine.execJnzA a s
  | .jnzX x => Sys2Proof.Machine.execJnzX x s
  | .joA a => Sys2Proof.Machine.execJoA a s
  | .joX x => Sys2Proof.Machine.execJoX x s
  | .jnoA a => Sys2Proof.Machine.execJnoA a s
  | .jnoX x => Sys2Proof.Machine.execJnoX x s
  | .jsA a => Sys2Proof.Machine.execJsA a s
  | .jsX x => Sys2Proof.Machine.execJsX x s
  | .jnsA a => Sys2Proof.Machine.execJnsA a s
  | .jnsX x => Sys2Proof.Machine.execJnsX x s
  | .pushI k => Sys2Proof.Machine.execPushI k s
  | .pushR r => Sys2Proof.Machine.execPushR r s
  | .pushA a => Sys2Proof.Machine.execPushA a s
  | .pushX x => Sys2Proof.Machine.execPushX x s
  | .pop r => Sys2Proof.Machine.execPop r s
  | .pushf => Sys2Proof.Machine.execPushf s
  | .popf => Sys2Proof.Machine.execPopf s
  | .callA a => Sys2Proof.Machine.execCallA a s
  | .callX x => Sys2Proof.Machine.execCallX x s
  | .ret => Sys2Proof.Machine.execRet s
  | .inp p => Sys2Proof.Machine.execInp p s
  | .outp p => Sys2Proof.Machine.execOutp p s

end Sys2Proof.Machine
end

