-- ==== Sys2Proof/Machine/Fetch.lean ====
section
/-! DEFINITION. The step procedure around the instruction rules (R62): the pc check, the opcode fetch, the
pre-incrementing operand fetches; the re-raise of a Faulted core (R233); and where a word to be fetched is stored. -/

namespace Sys2Proof.Machine

/-- `Fetch1()`: `pc <- pc + 1`, then read at pc (R6, R62). -/
def fetchByte (s : State) (k : Byte → State → Result) : Result :=
  let s1 := s.setPc (s.pc + 1)
  withRead s1.pc s1 fun b => k b s1

/-- One step of a Ready core up to the instruction rule, which is handed the instruction and the state in which pc is
the address of the last byte fetched (R62, R235; log 28). -/
def fetch (s : State) (rule : Instr → State → Result) : Result :=
  if inMemory s.pc then
    let op := s.load s.pc
    match formOfOpcode op with
    | none => takeFault (.invalidOpcode op) s
    | some f =>
      match f.nops with
      | 0 => rule (f.build 0 0) s
      | 1 => fetchByte s fun b1 s1 => rule (f.build b1 0) s1
      | _ => fetchByte s fun b1 s1 => fetchByte s1 fun b2 s2 => rule (f.build b1 b2) s2
  else takeFault (.instructionPointerOutOfBounds s.pc) s

/-- A step requested of a Faulted core: no state changes, and the same report is delivered again (R233, D20; log 20).
-/
def raiseAgain (r : FaultReport) (s : State) : Result := .next (s.emit (.faultRaised r))

/-- The memory from an address to the end, at most the three bytes of the longest instruction (R50, R62). -/
def State.bytesAt (s : State) (addr : Int) : List Byte :=
  [addr, addr + 1, addr + 2].filterMap fun a => if inMemory a then some (s.load a) else none

/-- Bytes stored one after the other from an address, by direct writes as a program load does them: no event (R44). -/
def Memory.writeBytes (m : Memory) (a : Nat) : List Byte → Memory
  | [] => m
  | b :: rest => if a < params.memSize then Memory.writeBytes (m.write a b) (a + 1) rest else m

/-- The state with the bytes of a table word stored at pc, where the next step fetches (log 22). -/
def State.storeFetchWord (s : State) (nbits w : Nat) : State :=
  { s with mem := s.mem.writeBytes s.pc.toNat (tableWordBytes nbits w) }

end Sys2Proof.Machine
end

