-- ==== Sys2Proof/Machine/Step.lean ====
section
/-! DEFINITION. One step of the machine (R17, R62, R224, R233), and a word stored where the next step fetches. -/

namespace Sys2Proof.Machine

/-- One step: a Ready core runs one instruction or takes one fault (R62), a Faulted core raises its fault again (R233),
a Halted core has no step (R224, D13; log 13). -/
def step (s : State) : Host.Outcome State Fault Refusal :=
  match s.rs with
  | .ready => fetch s exec
  | .faulted r => raiseAgain r s
  | .halted => .fault .stepInHalted

/-- `s` with the instruction of a table word stored where `step` fetches its next instruction (log 22). -/
def State.withFetchWord (s : State) (nbits w : Nat) : State := s.storeFetchWord nbits w

end Sys2Proof.Machine
end

