-- ==== Sys2Proof/Machine/Assembler.lean ====
section
/-! DEFINITION. The two-pass assembler of the surrounding software (R2, R63 to R74): from source text to program bytes
and address-to-line map. It is no part of the machine; it fixes which bytes a source text stands for. Source texts
the spec gives no meaning end in the error `notStated` (N24, U13; log 27). -/

namespace Sys2Proof.Asm

open Sys2Proof.Machine (params)

/-- The errors of the tool (R72), and the model's own `notStated` for source text the spec gives no meaning. -/
inductive ErrorKind where
  | syntaxError
  | duplicateLabel
  | undefinedLabel
  | unsupportedOperand
  | addressOutOfBounds
  /-- Source text whose meaning the spec does not state: refused (N24, U13). -/
  | notStated
  deriving DecidableEq, Repr

/-- An error with its 1-based source line (R72). -/
structure AsmError where
  kind : ErrorKind
  line : Nat
  deriving DecidableEq, Repr

/-- An operand as the classifier reads it (R65). -/
inductive Operand where
  | register (r : Reg)
  | indirect (r : Reg)
  | direct (n : Nat)
  | directLabel (name : List Char)
  | stackOffset (k : Int)
  | immediate (n : Nat)
  | negative
  | label (name : List Char)
  | byteList (codes : List Nat)
  deriving DecidableEq, Repr

/-- What an operand position of a form takes (R67). -/
inductive Shape where
  | reg | indirect | direct | byte | stackOffset | target | port
  deriving DecidableEq, Repr

/-- An operand's payload: a byte, or a label patched in pass 2 (R66, R68, R70). -/
inductive Payload where
  | byte (b : Byte)
  | label (name : List Char)
  deriving DecidableEq, Repr

/-! ### Text -/

/-- White space inside a line. DESIGN CHOICE: a space, a tab and a carriage return, also one alone, and no other character;
the spec does not say (log 39). -/
def isBlank (c : Char) : Bool := c = ' ' || c = '\t' || c = '\r'

/-- A text without the white space around it. -/
def trim (t : List Char) : List Char := ((t.dropWhile isBlank).reverse.dropWhile isBlank).reverse

/-- A text cut at every occurrence of a character. -/
def splitAtChar (sep : Char) : List Char → List (List Char)
  | [] => [[]]
  | c :: rest =>
    match splitAtChar sep rest with
    | [] => [[c]]
    | first :: others => if c = sep then [] :: first :: others else (c :: first) :: others

/-- The value of a decimal digit. DESIGN CHOICE: the ASCII digits only (log 39). -/
def digit? (c : Char) : Option Nat := if '0' ≤ c ∧ c ≤ '9' then some (c.toNat - '0'.toNat) else none

/-- The value of a hexadecimal digit. -/
def hexDigit? (c : Char) : Option Nat :=
  if 'a' ≤ c ∧ c ≤ 'f' then some (c.toNat - 'a'.toNat + 10)
  else if 'A' ≤ c ∧ c ≤ 'F' then some (c.toNat - 'A'.toNat + 10)
  else digit? c

/-- The number some digits stand for in a base. -/
def number? (base : Nat) (value : Char → Option Nat) (digits : List Char) : Option Nat :=
  if digits.isEmpty then none
  else digits.foldl (fun acc c => acc.bind fun n => (value c).map fun v => base * n + v) (some 0)

/-- A numeric literal: decimal, or hexadecimal after `0x` (R65 (d), R74). DESIGN CHOICE: the hexadecimal digits have either
case, the prefix `0X` and a leading `+` are not read, and leading zeros of a decimal change nothing (log 39). -/
def literal? : List Char → Option Nat
  | '0' :: 'x' :: digits => number? 16 hexDigit? digits
  | digits => number? 10 digit? digits

/-- A register name (R65). -/
def registerName? (t : List Char) : Option Reg :=
  if t = ['A', 'L'] then some .al
  else if t = ['B', 'L'] then some .bl
  else if t = ['C', 'L'] then some .cl
  else if t = ['D', 'L'] then some .dl
  else none

/-- A letter. DESIGN CHOICE: `a` to `z` and `A` to `Z` only, so that a label with any other letter is a SyntaxError; the
source names no character set (log 39). -/
def isLetter (c : Char) : Bool := ('a' ≤ c && c ≤ 'z') || ('A' ≤ c && c ≤ 'Z')

/-- Label syntax: a letter or a dot, then letters, digits or underscores (R64). -/
def isLabel : List Char → Bool
  | [] => false
  | c :: rest => (isLetter c || c = '.') && rest.all fun d => isLetter d || (digit? d).isSome || d = '_'

/-! ### Operands (R65, R66) -/

/-- What stands between brackets (R65 (a)); `[SP]` alone is not stated (N24). DESIGN CHOICE: `[SP+x]` and `[SP-x]` with an
`x` that is no literal are a SyntaxError at once; the last case of R65 (a) could also make the text a label-valued
DirectAddress, undefined in pass 2. Blanks inside the brackets are kept. A negative literal, as in
`[-5]`, and every other text that is neither a register nor a literal, takes that last case: a label-valued
DirectAddress, undefined in pass 2, and not `notStated` (log 36). -/
def classifyBracket (inner : List Char) : Except ErrorKind Operand :=
  match inner with
  | ['S', 'P'] => .error .notStated
  | 'S' :: 'P' :: '+' :: off =>
    match literal? off with
    | some n => .ok (.stackOffset n)
    | none => .error .syntaxError
  | 'S' :: 'P' :: '-' :: off =>
    match literal? off with
    | some n => .ok (.stackOffset (-(n : Int)))
    | none => .error .syntaxError
  | _ =>
    match registerName? inner, literal? inner with
    | some r, _ => .ok (.indirect r)
    | none, some n => .ok (.direct n)
    | none, none => .ok (.directLabel inner)

/-- The classification of an operand, in the order of R65. DESIGN CHOICE: a bracket, a string or a character literal
that is not closed is a SyntaxError (log 36); a string's contents go up to the last quote of the operand, inner quotes
are bytes of it and there are no escapes (log 40); the code of a character is its Unicode code point, so U+0080 to U+00FF
stand for one byte each, because the source names no character set (N20; log 38). -/
def classify (t : List Char) : Except ErrorKind Operand :=
  match t with
  | '[' :: rest =>
    if rest.getLast? = some ']' then classifyBracket rest.dropLast else .error .syntaxError
  | '"' :: rest =>
    if rest.getLast? = some '"' then .ok (.byteList (rest.dropLast.map Char.toNat)) else .error .syntaxError
  | '\'' :: rest =>
    match rest with
    | [c, '\''] => .ok (.immediate c.toNat)
    | _ => .error .syntaxError
  | '-' :: rest => if (literal? rest).isSome then .ok .negative else .error .syntaxError
  | _ =>
    match registerName? t with
    | some r => .ok (.register r)
    | none =>
      if isLabel t then .ok (.label t)
      else
        match literal? t with
        | some n => .ok (.immediate n)
        | none => .error .syntaxError

/-- A value that must fit a byte; a larger one has no stated meaning (R74, N24). -/
def byteOf (n : Nat) : Except ErrorKind Payload :=
  if n < 256 then .ok (.byte (BitVec.ofNat 8 n)) else .error .notStated

/-- Whether an operand has the shape of a position (R67); a negative literal has the shape of an Immediate. -/
def Shape.accepts : Shape → Operand → Bool
  | .reg, .register _ => true
  | .indirect, .indirect _ => true
  | .direct, .direct _ => true
  | .direct, .directLabel _ => true
  | .stackOffset, .stackOffset _ => true
  | .byte, .immediate _ => true
  | .byte, .label _ => true
  | .byte, .negative => true
  | .target, .immediate _ => true
  | .target, .label _ => true
  | .target, .negative => true
  | .port, .immediate _ => true
  | .port, .negative => true
  | _, _ => false

/-- The payload byte of an operand (R66, D23). A stack offset is the byte `k mod 256` (R66); only a literal above 255 in
it has no stated meaning (R74, N24). -/
def Operand.payload : Operand → Except ErrorKind Payload
  | .register r => .ok (.byte r.toByte)
  | .indirect r => .ok (.byte ({ off := 0, reg := BitVec.ofNat 3 r.index } : Indirect).toByte)
  | .direct n => byteOf n
  | .directLabel name => .ok (.label name)
  | .stackOffset k => if -255 ≤ k ∧ k ≤ 255 then .ok (.byte (BitVec.ofInt 8 k)) else .error .notStated
  | .immediate n => byteOf n
  | .negative => .error .notStated
  | .label name => .ok (.label name)
  | .byteList _ => .error .unsupportedOperand

/-! ### Opcode selection (R67, R73) -/

/-- The mnemonic of a variant (R58, R73). -/
def mnemonic : Form → String
  | .hlt => "HLT"
  | .movRR | .movRA | .movRX | .movAR | .movXR | .movRI | .movAI | .movXI | .movRS | .movSR => "MOV"
  | .addI | .addR | .addA | .addX => "ADD"
  | .subI | .subR | .subA | .subX => "SUB"
  | .inc => "INC"
  | .dec => "DEC"
  | .neg => "NEG"
  | .mulI | .mulR | .mulA | .mulX => "MUL"
  | .divI | .divR | .divA | .divX => "DIV"
  | .cmpI | .cmpR | .cmpA | .cmpX => "CMP"
  | .andI | .andR | .andA | .andX => "AND"
  | .orI | .orR | .orA | .orX => "OR"
  | .xorI | .xorR | .xorA | .xorX => "XOR"
  | .not => "NOT"
  | .shlI | .shlR | .shlA | .shlX => "SHL"
  | .shrI | .shrR | .shrA | .shrX => "SHR"
  | .jmpA | .jmpX => "JMP"
  | .jcA | .jcX => "JC"
  | .jncA | .jncX => "JNC"
  | .jzA | .jzX => "JZ"
  | .jnzA | .jnzX => "JNZ"
  | .joA | .joX => "JO"
  | .jnoA | .jnoX => "JNO"
  | .jsA | .jsX => "JS"
  | .jnsA | .jnsX => "JNS"
  | .pushI | .pushR | .pushA | .pushX => "PUSH"
  | .pop => "POP"
  | .pushf => "PUSHF"
  | .popf => "POPF"
  | .callA | .callX => "CALL"
  | .ret => "RET"
  | .inp => "IN"
  | .outp => "OUT"

/-- The other names of mnemonics (R73, R171). -/
def canonicalMnemonic (t : List Char) : List Char :=
  if t = "JE".toList then "JZ".toList else if t = "JNE".toList then "JNZ".toList else t

/-- The operand shapes of a format when its one-byte address is a data operand (R51, R67). -/
def formatShapes : Format → List Shape
  | .f0 => []
  | .f1r => [.reg]
  | .f1i => [.byte]
  | .f1a => [.direct]
  | .f1x => [.indirect]
  | .f1p => [.port]
  | .f2rr => [.reg, .reg]
  | .f2ri => [.reg, .byte]
  | .f2ra => [.reg, .direct]
  | .f2rx => [.reg, .indirect]
  | .f2ar => [.direct, .reg]
  | .f2xr => [.indirect, .reg]
  | .f2ai => [.direct, .byte]
  | .f2xi => [.indirect, .byte]
  | .f2rs => [.reg, .stackOffset]
  | .f2sr => [.stackOffset, .reg]

/-- The operand shapes of a variant: jumps and calls write their target address without brackets (R67). -/
def shapes (f : Form) : List Shape :=
  if f.format = .f1a ∧ f ≠ .pushA then [.target] else formatShapes f.format

/-- Whether operands fit shapes, one for one. -/
def fits : List Shape → List Operand → Bool
  | [], [] => true
  | shape :: shapes, o :: os => shape.accepts o && fits shapes os
  | _, _ => false

/-- The one variant a mnemonic and its operands select (R67); an unknown mnemonic is a syntax error (log 27). -/
def select (name : List Char) (os : List Operand) : Except ErrorKind Form :=
  let m := canonicalMnemonic name
  let named := params.opmap.filter fun f => (mnemonic f).toList = m
  match named.isEmpty, named.find? fun f => fits (shapes f) os with
  | true, _ => .error .syntaxError
  | false, some f => .ok f
  | false, none => .error .unsupportedOperand

/-! ### Pass 1 (R63, R64, R68, R69, R71) -/

/-- A byte emitted, or a zero placeholder with the label that replaces it in pass 2 (R68, R70). -/
structure Emitted where
  addr : Nat
  value : Byte
  patch : Option (List Char)
  line : Nat
  deriving DecidableEq, Repr

/-- The state of pass 1: the write cursor, the bytes emitted so far (newest first) and the labels. -/
structure Pass where
  cursor : Nat
  bytes : List Emitted
  labels : List (List Char × Nat)
  deriving DecidableEq, Repr

/-- One byte at the cursor; none at 192 or above (R71, D27). -/
def Pass.emit (p : Pass) (line : Nat) (value : Byte) (patch : Option (List Char)) : Except ErrorKind Pass :=
  if p.cursor < params.progMax then
    .ok { p with
      cursor := p.cursor + 1
      bytes := { addr := p.cursor, value := value, patch := patch, line := line } :: p.bytes }
  else .error .addressOutOfBounds

/-- Payloads emitted left to right (R68). -/
def Pass.emitAll (line : Nat) : Pass → List Payload → Except ErrorKind Pass
  | p, [] => .ok p
  | p, .byte b :: rest => (p.emit line b none).bind fun q => Pass.emitAll line q rest
  | p, .label name :: rest => (p.emit line 0 (some name)).bind fun q => Pass.emitAll line q rest

/-- A label defined at the current write address; twice is an error (R64, D26). -/
def Pass.define (p : Pass) (name : List Char) : Except ErrorKind Pass :=
  let key := params.labelKey name
  if p.labels.any fun l => decide (l.1 = key) then .error .duplicateLabel
  else .ok { p with labels := (key, p.cursor) :: p.labels }

/-- `ORG addr` and `DB` (R69). DESIGN CHOICE: a bare label as the operand of either is an UnsupportedOperand, because D23
and C8 speak of the byte and addr positions of the form table only; so are several operands, or none (log 37). -/
def Pass.directive (p : Pass) (line : Nat) (isOrg : Bool) (os : List Operand) : Except ErrorKind Pass :=
  match isOrg, os with
  | true, [.immediate n] => if n < 256 then .ok { p with cursor := n } else .error .addressOutOfBounds
  | true, [.negative] => .error .addressOutOfBounds
  | false, [.immediate n] => (byteOf n).bind fun b => p.emitAll line [b]
  | false, [.negative] => .error .notStated
  | false, [.byteList codes] => (codes.mapM byteOf).bind fun bs => p.emitAll line bs
  | _, _ => .error .unsupportedOperand

/-- A mnemonic with its operands (R63, R67 to R69). DESIGN CHOICE: the operands are classified first, so that their errors
come before those of the mnemonic and of the form (log 41). -/
def Pass.statement (p : Pass) (line : Nat) (name : List Char) (operands : List (List Char)) :
    Except ErrorKind Pass :=
  (operands.mapM classify).bind fun os =>
    if name = "ORG".toList then p.directive line true os
    else if name = "DB".toList then p.directive line false os
    else
      (select name os).bind fun f =>
        (os.mapM Operand.payload).bind fun payloads => p.emitAll line (.byte f.opcode :: payloads)

/-- The text of a line without its label definition, and the label (R63, R64). DESIGN CHOICE: white space may stand between
the name and its colon, and text before a colon that is no label stays in the line (log 36). -/
def splitLabel (t : List Char) : Option (List Char) × List Char :=
  let before := trim (t.takeWhile fun c => c ≠ ':')
  if t.contains ':' && isLabel before then (some before, trim ((t.dropWhile fun c => c ≠ ':').drop 1))
  else (none, t)

/-- One source line (R63). DESIGN CHOICE: a `;` starts the comment and a `,` separates operands wherever it stands, inside
a string and inside a character literal too, so that `MOV AL,','` and `MOV AL,';'` are SyntaxErrors; the spec does not
say (log 27). -/
def Pass.line (p : Pass) (n : Nat) (text : List Char) : Except ErrorKind Pass :=
  let (name, rest) := splitLabel (trim (text.takeWhile fun c => c ≠ ';'))
  (match name with
    | some l => p.define l
    | none => .ok p).bind fun q =>
  if rest.isEmpty then .ok q
  else
    let word := rest.takeWhile fun c => !isBlank c
    let tail := trim (rest.drop word.length)
    q.statement n word (if tail.isEmpty then [] else (splitAtChar ',' tail).map trim)

/-- Pass 1 over the lines, numbered from `n`. DESIGN CHOICE: it ends at the first error (log 41). -/
def Pass.lines : Pass → Nat → List (List Char) → Except AsmError Pass
  | p, _, [] => .ok p
  | p, n, text :: rest =>
    match p.line n text with
    | .error kind => .error { kind := kind, line := n }
    | .ok q => Pass.lines q (n + 1) rest

/-! ### Pass 2 and the output (R70, R71) -/

/-- The address of a label as a byte; an undefined label is reported with the line that referenced it (R64, R70). -/
def resolve (labels : List (List Char × Nat)) (name : List Char) (line : Nat) : Except AsmError Byte :=
  match labels.find? fun l => decide (l.1 = params.labelKey name) with
  | some (_, addr) => .ok (BitVec.ofNat 8 addr)
  | none => .error { kind := .undefinedLabel, line := line }

/-- Pass 2's overwrites: for every recorded address and label, in the order recorded, the byte that overwrites the
placeholder (R70). -/
def patches (labels : List (List Char × Nat)) : List Emitted → Except AsmError (List (Nat × Byte))
  | [] => .ok []
  | e :: rest =>
    match e.patch with
    | none => patches labels rest
    | some name =>
      (resolve labels name e.line).bind fun b => (patches labels rest).map fun later => (e.addr, b) :: later

/-- The assembler's output: the bytes up to the highest written address, and the address-to-line map (R71). -/
structure Output where
  bytes : List Byte
  lineMap : List (Nat × Nat)
  deriving DecidableEq, Repr

/-- The byte last written at an address; a byte the cursor skipped is 0 (R69). -/
def byteAt (written : List (Nat × Byte)) (a : Nat) : Byte :=
  match written.reverse.find? fun w => decide (w.1 = a) with
  | some (_, b) => b
  | none => 0

/-- The length of the output: one more than the highest written address (R71). -/
def extent (emitted : List Emitted) : Nat := emitted.foldl (fun n e => max n (e.addr + 1)) 0

/-- The assembler (R63 to R71): source text to bytes and line map, or the first error with its line. DESIGN CHOICE: a line
ends at a line feed and at no other character (log 39); the errors of pass 1 come before those of pass 2 (log 41). The working buffer
takes every byte of pass 1 in order, then every overwrite of pass 2, so an overwrite beats whatever pass 1 wrote at its
address, even later (R70). DESIGN CHOICE: an address emitted twice stands twice in the line map, once with each line, in
the order of emission; the spec does not say what the map then holds (log 35). -/
def assemble (source : List Char) : Except AsmError Output :=
  (Pass.lines { cursor := 0, bytes := [], labels := [] } 1 (splitAtChar '\n' source)).bind fun p =>
    let emitted := p.bytes.reverse
    (patches p.labels emitted).map fun overwrites =>
      { bytes := (List.range (extent emitted)).map (byteAt (emitted.map (fun e => (e.addr, e.value)) ++ overwrites))
        lineMap := emitted.map fun e => (e.addr, e.line) }

end Sys2Proof.Asm
end

