-- ==== Sys2Proof/Machine/HostActions.lean ====
section
/-! DEFINITION. What the host does between steps (R24, R44, R244, R260, R262), the labels of the fault reports (R230)
and the devices behind the ports (R47, R240). None of it is part of a step. -/

namespace Sys2Proof.Machine

/-- `Memory.reset()`: the reset contents everywhere; no event (R260, D14; log 14). -/
def State.memReset (s : State) : State := { s with mem := [] }

/-- `PowerOn()`: both resets (R260, D14). -/
def State.powerOn (s : State) : State := s.cpuReset.memReset

/-- The memory with its program region cleared and its display region kept (R44). -/
def Memory.clearProgram (m : Memory) : Memory := m.filter fun cell => decide (params.displayBase ≤ cell.1)

/-- `loadProgram(bytes)`: refused when longer than 192 bytes; else the program region is cleared, the bytes are copied
to address 0, and the display region and the CPU are untouched (R44 (c), R262, D22; log 22). -/
def State.loadProgram (s : State) (bytes : List Byte) : Option State :=
  if bytes.length ≤ params.progMax then some { s with mem := s.mem.clearProgram.writeBytes 0 bytes } else none

/-- `load(addr)`: none is the bounds error to the host, which changes no state (R44 (a)). -/
def State.hostLoad (s : State) (addr : Int) : Option Byte :=
  if inMemory addr then some (s.load addr) else none

/-- `store(addr, val)`: a MemWrite with its Display event; none is the bounds error to the host (R44 (b)). -/
def State.hostStore (s : State) (addr val : Int) : Option State :=
  if inMemory addr then some (s.store addr (low val)) else none

/-- The environment supplies a byte to a port: the keyboard's byte, or a device's answer (R244, R220; log 15). -/
def State.supplyInput (s : State) (port value : Byte) : State :=
  { s with inbox := s.inbox ++ [{ port := port, value := value }] }

/-- `size` of the memory (R24). -/
def memorySize : Nat := params.memSize

/-- `isHalted()` (R17, R24). -/
def State.isHalted (s : State) : Bool :=
  match s.rs with
  | .halted => true
  | _ => false

/-- `isFault()` (R17, R24). -/
def State.isFault (s : State) : Bool :=
  match s.rs with
  | .faulted _ => true
  | _ => false

/-- The query surface of the registers (R24). -/
structure HostView where
  al : Byte
  bl : Byte
  cl : Byte
  dl : Byte
  sp : Byte
  /-- The exact pc; what a byte-wide query would return outside 0 to 255 is not stated (N9, U2; log 32). -/
  ip : Int
  sr : Byte
  zero : Bool
  carry : Bool
  overflow : Bool
  sign : Bool
  fault : Bool
  isHalted : Bool
  isFault : Bool
  deriving DecidableEq, Repr

/-- What the host reads of a state, in any run state and without side effects (R24). -/
def State.snapshot (s : State) : HostView :=
  { al := s.al, bl := s.bl, cl := s.cl, dl := s.dl, sp := s.sp, ip := s.pc, sr := s.sr
    zero := s.flags.z, carry := s.flags.c, overflow := s.flags.o, sign := s.flags.s, fault := s.f
    isHalted := s.isHalted, isFault := s.isFault }

/-- The label 1 to 7 of a fault (R230, D20); no program can see it. -/
def FaultReport.ordinal : FaultReport → Nat
  | .instructionPointerOutOfBounds _ => 1
  | .invalidOpcode _ => 2
  | .addressOutOfBounds _ => 3
  | .invalidRegister _ => 4
  | .divisionByZero => 5
  | .stackOverflow _ => 6
  | .stackUnderflow _ => 7

/-- The devices of the port space, outside the core (R47, R240). -/
inductive Device where
  | keyboard | trafficLights | heater
  deriving DecidableEq, Repr

/-- The device that answers IN at a port, if any (R47). -/
def inputDevice (port : Byte) : Option Device :=
  if port = params.portKeyboard then some .keyboard
  else if port = params.portHeater then some .heater
  else none

/-- The device that takes OUT at a port; none: the event reaches no device and nothing happens (R47, R220, R222). -/
def outputDevice (port : Byte) : Option Device :=
  if port = params.portLights then some .trafficLights
  else if port = params.portHeater then some .heater
  else none

end Sys2Proof.Machine
end

