-- ==== Sys2Proof/Safety.lean ====
section
/-! DEFINITION. What the claims say of a state and of a run: the invariants of R22 and of the state's own forms, and
what counts as a safe step. -/

namespace Sys2Proof.Machine

/-- The ranges of R13 and R22: pc is -16 to 270; SP is 0x80 to 0xBF unless the core is Faulted, where it may also be
0x7F or 0xC0 (R12). -/
abbrev State.inRange (s : State) : Prop :=
  (-16 ≤ s.pc ∧ s.pc ≤ 270) ∧
  match s.rs with
  | .faulted _ => 0x7F ≤ s.sp.toNat ∧ s.sp.toNat ≤ 0xC0
  | _ => 0x80 ≤ s.sp.toNat ∧ s.sp.toNat ≤ 0xBF

/-- F is 1 exactly when the run state is Faulted (R15). -/
abbrev State.faultFlagAgrees (s : State) : Prop := s.f = true ↔ ∃ r, s.rs = .faulted r

/-- The invariant of the machine: canonical memory, the ranges of R22, F agreeing with RS. -/
abbrev State.Inv (s : State) : Prop := s.mem.wf ∧ s.inRange ∧ s.faultFlagAgrees

/-- A safe step: it answers a next state and that state is not Faulted (R233 "a Faulted state is never a normal end
of a run"). -/
abbrev SafeStep (s : State) : Prop := ∃ t, step s = .next t ∧ ∀ r, t.rs ≠ .faulted r

/-- The states that some number of steps reaches from a state. -/
inductive Reaches : State → State → Prop where
  | refl (s : State) : Reaches s s
  | tail {s t u : State} : Reaches s t → step t = .next u → Reaches s u

end Sys2Proof.Machine
end

