-- ==== Sys2Proof/Certificates/Slice0/Obligations.lean ====
section
/-! DEFINITION. The statements for the provers. `exec i s` is entered with `pc` at the last byte of the instruction
fetched, so `s.pc + 1` is the rules' `next` (R6, R62; log 28). That `next` is not masked is decision D5 (log 5)
wherever it stands; how `s.eaInd` and `s.eaSp` are computed (D2, D6, logs 2, 6, 26) is said by RegisterIndirectAddress
and StackOffsetAddress alone, and a statement that names them takes them as they are; events stand newest first (log 23). -/

namespace Sys2Proof.Claims

open Sys2Proof.Machine

/-! ### Words the statements share -/

/-- The byte at one address, as the model reads it. -/
def byteAt (s : State) (a : Nat) : Byte := s.mem.read a

/-- Every byte of memory is as before. -/
def SameMemory (s t : State) : Prop := ∀ a : Nat, byteAt t a = byteAt s a

/-- Every byte of memory but one is as before. -/
def SameMemoryBut (stored : Nat) (s t : State) : Prop := ∀ a : Nat, a ≠ stored → byteAt t a = byteAt s a

/-- Every general register is as before. -/
def SameRegisters (s t : State) : Prop := ∀ q : Reg, t.reg q = s.reg q

/-- Every general register but one is as before. -/
def SameRegistersBut (d : Reg) (s t : State) : Prop := ∀ q : Reg, q ≠ d → t.reg q = s.reg q

/-- F and RS are as before (R15, R17). -/
def SameRunState (s t : State) : Prop := t.f = s.f ∧ t.rs = s.rs

/-- No input was taken and no free answer drawn (R220). -/
def SameInputs (s t : State) : Prop := t.inbox = s.inbox ∧ t.draws = s.draws

/-- The frame of an instruction that writes register `d`, perhaps flags, and moves pc to `next`: everything else is
as before, every byte of memory too, and no event happened. -/
def OnlyRegisterWritten (d : Reg) (s t : State) : Prop :=
  SameRegistersBut d s t ∧ t.sp = s.sp ∧ SameMemory s t ∧ SameRunState s t ∧ SameInputs s t ∧
    t.events = s.events ∧ t.pc = s.pc + 1

/-- Z and S as `SetZS` gives them for a result (R100). -/
def ZeroSignOf (t : State) (v : Byte) : Prop :=
  (t.flags.z = true ↔ v.toNat = 0) ∧ (t.flags.s = true ↔ 128 ≤ v.toNat)

/-- The Faulted state that a fault with nothing but pc changed leaves: F, RS and the event (R231, R232). -/
def faultState (r : FaultReport) (s : State) : State :=
  { s with f := true, rs := .faulted r, events := .faultRaised r :: s.events }

/-- An address inside the memory space (R31). -/
def InSpace (addr : Int) : Prop := 0 ≤ addr ∧ addr ≤ 255

/-- The events of a store: one `Display` more when the address is in 0xC0 to 0xFF (R32). -/
def displayed (addr : Nat) (v : Byte) (events : List Event) : List Event :=
  if 0xC0 ≤ addr ∧ addr ≤ 0xFF then .display addr v :: events else events

/-- The four source forms of a two-operand ALU instruction with destination `d`, given its four constructors, each
with the value of its second operand in state `s` (R100). -/
inductive SourceForm (imm reg dir : Byte → Byte → Instr) (ind : Byte → Indirect → Instr) (s : State) (d : Reg) :
    Instr → Byte → Prop where
  | immediate (k : Byte) : SourceForm imm reg dir ind s d (imm d.toByte k) k
  | register (r : Reg) : SourceForm imm reg dir ind s d (reg d.toByte r.toByte) (s.reg r)
  | direct (a : Byte) : SourceForm imm reg dir ind s d (dir d.toByte a) (byteAt s a.toNat)
  | indirect (x : Indirect) (h : InSpace (s.eaInd x)) :
      SourceForm imm reg dir ind s d (ind d.toByte x) (byteAt s (s.eaInd x).toNat)

/-- The five forms of MOV to register `d` with the value moved (R81, R82, R83, R86, R89). -/
inductive LoadForm (s : State) (d : Reg) : Instr → Byte → Prop where
  | register (r : Reg) : LoadForm s d (.movRR d.toByte r.toByte) (s.reg r)
  | immediate (k : Byte) : LoadForm s d (.movRI d.toByte k) k
  | direct (a : Byte) : LoadForm s d (.movRA d.toByte a) (byteAt s a.toNat)
  | indirect (x : Indirect) (h : InSpace (s.eaInd x)) :
      LoadForm s d (.movRX d.toByte x) (byteAt s (s.eaInd x).toNat)
  | stackOffset (o : Byte) (h : InSpace (s.eaSp o)) :
      LoadForm s d (.movRS d.toByte o) (byteAt s (s.eaSp o).toNat)

/-- The five forms of MOV to memory with the address stored to and the value (R84, R85, R87, R88, R90). -/
inductive StoreForm (s : State) : Instr → Int → Byte → Prop where
  | directRegister (a : Byte) (r : Reg) : StoreForm s (.movAR a r.toByte) a.toNat (s.reg r)
  | indirectRegister (x : Indirect) (r : Reg) : StoreForm s (.movXR x r.toByte) (s.eaInd x) (s.reg r)
  | directImmediate (a k : Byte) : StoreForm s (.movAI a k) a.toNat k
  | indirectImmediate (x : Indirect) (k : Byte) : StoreForm s (.movXI x k) (s.eaInd x) k
  | stackRegister (o : Byte) (r : Reg) : StoreForm s (.movSR o r.toByte) (s.eaSp o) (s.reg r)

/-- The pushes that go on at `next`, with the byte pushed (R202 to R205, R207). -/
inductive PushForm (s : State) : Instr → Byte → Prop where
  | immediate (k : Byte) : PushForm s (.pushI k) k
  | register (r : Reg) : PushForm s (.pushR r.toByte) (s.reg r)
  | direct (a : Byte) : PushForm s (.pushA a) (byteAt s a.toNat)
  | indirect (x : Indirect) (h : InSpace (s.eaInd x)) : PushForm s (.pushX x) (byteAt s (s.eaInd x).toNat)
  | status : PushForm s .pushf s.sr

/-- The calls, with their target computed before the push (R215, R216). -/
inductive CallForm (s : State) : Instr → Int → Prop where
  | direct (a : Byte) : CallForm s (.callA a) a.toNat
  | indirect (x : Indirect) : CallForm s (.callX x) (s.eaInd x)

/-- The pops (R206, R208, R217). -/
inductive PopForm : Instr → Prop where
  | register (r : Reg) : PopForm (.pop r.toByte)
  | status : PopForm .popf
  | ret : PopForm .ret

/-- The jump families: the direct form, the register-indirect form, and when they are taken (R171 to R189). -/
inductive JumpFamily : (Byte → Instr) → (Indirect → Instr) → (Flags → Bool) → Prop where
  | jmp : JumpFamily .jmpA .jmpX fun _ => true
  | jc : JumpFamily .jcA .jcX fun fl => fl.c
  | jnc : JumpFamily .jncA .jncX fun fl => !fl.c
  | jz : JumpFamily .jzA .jzX fun fl => fl.z
  | jnz : JumpFamily .jnzA .jnzX fun fl => !fl.z
  | jo : JumpFamily .joA .joX fun fl => fl.o
  | jno : JumpFamily .jnoA .jnoX fun fl => !fl.o
  | js : JumpFamily .jsA .jsX fun fl => fl.s
  | jns : JumpFamily .jnsA .jnsX fun fl => !fl.s

/-- The constructors of SHL and SHR in their four source forms (R155 to R162). -/
inductive ShiftFamily : (Byte → Byte → Instr) → (Byte → Byte → Instr) → (Byte → Byte → Instr) →
    (Byte → Indirect → Instr) → Prop where
  | shl : ShiftFamily .shlI .shlR .shlA .shlX
  | shr : ShiftFamily .shrI .shrR .shrA .shrX

/-- The address an instruction stores to, where it has one: its destination operand's address, or SP for a push
(R37, R84, R85, R87, R88, R90, R200). -/
def storeAddress (i : Instr) (s : State) : Option Nat :=
  match i with
  | .movAR a _ => some a.toNat
  | .movAI a _ => some a.toNat
  | .movXR x _ => some (s.eaInd x).toNat
  | .movXI x _ => some (s.eaInd x).toNat
  | .movSR o _ => some (s.eaSp o).toNat
  | .pushI _ => some s.sp.toNat
  | .pushR _ => some s.sp.toNat
  | .pushA _ => some s.sp.toNat
  | .pushX _ => some s.sp.toNat
  | .pushf => some s.sp.toNat
  | .callA _ => some s.sp.toNat
  | .callX _ => some s.sp.toNat
  | _ => none

/-- The byte that a push or a call stores at SP, where it is one and its register byte is valid (R202 to R205, R207,
R215, R216). -/
def pushedByte (i : Instr) (s : State) : Option Byte :=
  match i with
  | .pushI k => some k
  | .pushR r => (Reg.ofIndex? r.toNat).map s.reg
  | .pushA a => some (byteAt s a.toNat)
  | .pushX x => some (byteAt s (s.eaInd x).toNat)
  | .pushf => some s.sr
  | .callA _ => some (low (s.pc + 1))
  | .callX _ => some (low (s.pc + 1))
  | _ => none

/-- The direct form of a two-operand ALU instruction beside its immediate form (R54, R55, R100). -/
inductive DirectBesideImmediate : (Byte → Byte → Instr) → (Byte → Byte → Instr) → Prop where
  | add : DirectBesideImmediate .addA .addI
  | sub : DirectBesideImmediate .subA .subI
  | mul : DirectBesideImmediate .mulA .mulI
  | div : DirectBesideImmediate .divA .divI
  | cmp : DirectBesideImmediate .cmpA .cmpI
  | and : DirectBesideImmediate .andA .andI
  | or : DirectBesideImmediate .orA .orI
  | xor : DirectBesideImmediate .xorA .xorI
  | shl : DirectBesideImmediate .shlA .shlI
  | shr : DirectBesideImmediate .shrA .shrI

/-- The variants that write no general register at all (R21). -/
def writesNoRegister : List Form :=
  [.hlt, .movAR, .movXR, .movAI, .movXI, .movSR, .cmpI, .cmpR, .cmpA, .cmpX, .jmpA, .jmpX, .jcA, .jcX, .jncA, .jncX,
    .jzA, .jzX, .jnzA, .jnzX, .joA, .joX, .jnoA, .jnoX, .jsA, .jsX, .jnsA, .jnsX, .pushI, .pushR, .pushA, .pushX,
    .pushf, .popf, .callA, .callX, .ret, .outp]

/-- The destination register byte of an instruction, if it has one; IN's is AL (R21, R221). -/
def destination (i : Instr) : Option RegByte :=
  if i.form ∈ writesNoRegister then none
  else if i.form = .inp then some Reg.al.toByte
  else i.regBytes.head?

/-- The variants that write the flags (R21). -/
def flagWriters : List Form :=
  [.addI, .addR, .addA, .addX, .subI, .subR, .subA, .subX, .inc, .dec, .neg, .mulI, .mulR, .mulA, .mulX, .divI, .divR,
    .divA, .divX, .cmpI, .cmpR, .cmpA, .cmpX, .andI, .andR, .andA, .andX, .orI, .orR, .orA, .orX, .xorI, .xorR, .xorA,
    .xorX, .not, .shlI, .shlR, .shlA, .shlX, .shrI, .shrR, .shrA, .shrX, .popf]

/-- The variants that write SP (R12, R21). -/
def stackVariants : List Form :=
  [.pushI, .pushR, .pushA, .pushX, .pop, .pushf, .popf, .callA, .callX, .ret]

/-- The variants that may write pc with anything but `next` (R190), and IN, which may hold (R221). -/
def transferVariants : List Form :=
  [.jmpA, .jmpX, .jcA, .jcX, .jncA, .jncX, .jzA, .jzX, .jnzA, .jnzX, .joA, .joX, .jnoA, .jnoX, .jsA, .jsX, .jnsA,
    .jnsX, .callA, .callX, .ret, .inp]

/-- The computed address of the data byte that an instruction reads or writes, where it has one: the RegisterIndirect
and StackOffset operands of MOV, of the ALU instructions and of PUSH (R33, R53, R56). -/
def dataAddress (i : Instr) (s : State) : Option Int :=
  match i with
  | .movRX _ x => some (s.eaInd x)
  | .movXR x _ => some (s.eaInd x)
  | .movXI x _ => some (s.eaInd x)
  | .movRS _ o => some (s.eaSp o)
  | .movSR o _ => some (s.eaSp o)
  | .addX _ x => some (s.eaInd x)
  | .subX _ x => some (s.eaInd x)
  | .mulX _ x => some (s.eaInd x)
  | .divX _ x => some (s.eaInd x)
  | .cmpX _ x => some (s.eaInd x)
  | .andX _ x => some (s.eaInd x)
  | .orX _ x => some (s.eaInd x)
  | .xorX _ x => some (s.eaInd x)
  | .shlX _ x => some (s.eaInd x)
  | .shrX _ x => some (s.eaInd x)
  | .pushX x => some (s.eaInd x)
  | _ => none

/-- The operand counts that R59 lists by opcode number. -/
def operandCount (op : Nat) : Nat :=
  if op = 0 ∨ op = 78 ∨ op = 79 ∨ op = 82 then 0
  else if op = 19 ∨ op = 20 ∨ op = 21 ∨ op = 46 ∨ (55 ≤ op ∧ op ≤ 77) ∨ op = 80 ∨ op = 81 ∨ op = 83 ∨ op = 84 then 1
  else 2

end Sys2Proof.Claims

open Sys2Proof Sys2Proof.Machine Sys2Proof.Claims

/-! ### Reset and the host -/

/-- What `CPU.reset()` and `Memory.reset()` leave in every state element, from any state; each leaves the other's
elements alone (R23, R260; the row of SR is one the spec marks as derived, and that its bits 5 to 7 read 0 is decision
D8, log 8). -/
def Obligations.ResetValues : Prop :=
  ∀ s : State,
    (∀ q : Reg, s.cpuReset.reg q = 0x00) ∧ s.cpuReset.sp = 0xBF ∧ s.cpuReset.pc = 0 ∧
    s.cpuReset.flags = { c := false, o := false, z := false, s := false } ∧ s.cpuReset.f = false ∧
    s.cpuReset.sr = 0x00 ∧ s.cpuReset.rs = .ready ∧ SameMemory s s.cpuReset ∧
    (∀ a : Nat, a < 0xC0 → byteAt s.memReset a = 0x00) ∧
    (∀ a : Nat, 0xC0 ≤ a → a ≤ 0xFF → byteAt s.memReset a = 0x20) ∧
    SameRegisters s s.memReset ∧ s.memReset.sp = s.sp ∧ s.memReset.pc = s.pc ∧ s.memReset.flags = s.flags ∧
    s.memReset.sr = s.sr ∧ SameRunState s s.memReset

/-- The state after the power-on reset and the first step from it with no program loaded: HLT at address 0 (R260, R261;
rests on the opcode number of HLT, decision D1, log 1, and on the power-on decision D14, log 14, for SR on D8, log 8,
and for the flags HLT leaves on D9, log 9). -/
def Obligations.PowerOnThenHalts : Prop :=
  (∀ q : Reg, State.reset.reg q = 0x00) ∧ State.reset.sp = 0xBF ∧ State.reset.pc = 0 ∧ State.reset.sr = 0x00 ∧
  State.reset.rs = .ready ∧ (∀ a : Nat, a < 0xC0 → byteAt State.reset a = 0x00) ∧
  (∀ a : Nat, 0xC0 ≤ a → a ≤ 0xFF → byteAt State.reset a = 0x20) ∧
  step State.reset = .next { State.reset with rs := .halted, pc := 1 }

/-- Loading a program: refused above 192 bytes; else the program region is cleared and filled from address 0, and every
other byte, the whole CPU, the inputs and the events are as before (R44, R262; that the CPU is not reset is decision
D22, log 22, and the event history is the model's, log 23). -/
def Obligations.LoadProgramFillsProgramRegion : Prop :=
  ∀ (s : State) (bytes : List Byte),
    (192 < bytes.length → s.loadProgram bytes = none) ∧
    (bytes.length ≤ 192 → ∃ t, s.loadProgram bytes = some t ∧
      (∀ (a : Nat) (h : a < bytes.length), byteAt t a = bytes[a]) ∧
      (∀ a : Nat, bytes.length ≤ a → a < 0xC0 → byteAt t a = 0x00) ∧
      (∀ a : Nat, 0xC0 ≤ a → byteAt t a = byteAt s a) ∧
      SameRegisters s t ∧ t.sp = s.sp ∧ t.pc = s.pc ∧ t.flags = s.flags ∧ SameRunState s t ∧ SameInputs s t ∧
      t.events = s.events)

/-! ### Encoding -/

/-- Decoding what was encoded gives the instruction back, with every operand at every value, whatever bytes follow
(R50, R51, R58, R76; the opcode numbers and the variants are decisions D1, D3 and D4, logs 1, 3, 4, and that a register
field of 5 to 7 is kept is log 26). -/
def Obligations.DecodeOfEncode : Prop :=
  ∀ (i : Instr) (rest : List Byte), decode (encode i ++ rest) = .ok (i, rest)

/-- Bytes that decode are the encoding of what they decode to, followed by the bytes left: no two byte sequences stand
for one instruction (R50, R61, R76; the opcode numbers and the variants are decisions D1, D3 and D4, logs 1, 3, 4, and
that a register field of 5 to 7 is kept is log 26). -/
def Obligations.EncodeOfDecode : Prop :=
  ∀ (bytes rest : List Byte) (i : Instr), decode bytes = .ok (i, rest) → bytes = encode i ++ rest

/-- The opcode byte alone decides whether bytes are an instruction and how many operand bytes it takes: 85 to 255 are
refused by name, too few operand bytes are refused by name, and enough of them decode (R58 to R60; the operand counts
are by opcode number, which is decision D1, log 1, with the variants D4, log 4). -/
def Obligations.OpcodeFixesLength : Prop :=
  ∀ (op : Byte) (rest : List Byte),
    (85 ≤ op.toNat → decode (op :: rest) = .error (.invalidOpcode op)) ∧
    (op.toNat < 85 → rest.length < operandCount op.toNat → decode (op :: rest) = .error (.missingOperands op)) ∧
    (op.toNat < 85 → operandCount op.toNat ≤ rest.length →
      ∃ i, decode (op :: rest) = .ok (i, rest.drop (operandCount op.toNat)))

/-- Words written out from the encoding tables decode to the instructions they stand for (R58, R66, R75; the opcode
numbers are decision D1, log 1, the variants D4, log 4, and the jump names D3, log 3). -/
def Obligations.WrittenWordsDecode : Prop :=
  decode [0x06, 0x00, 0x64] = .ok (.movRI 0 0x64, []) ∧ decode [0x0B, 0x00, 0x64] = .ok (.addI 0 0x64, []) ∧
  decode [0x0F, 0x00, 0x01] = .ok (.subI 0 1, []) ∧ decode [0x17, 0x00, 0x01] = .ok (.mulR 0 1, []) ∧
  decode [0x1A, 0x00, 0x00] = .ok (.divI 0 0, []) ∧ decode [0x1F, 0x00, 0x01] = .ok (.cmpR 0 1, []) ∧
  decode [0x25, 0x02, 0x0B] = .ok (.andX 2 { off := 1, reg := 3 }, []) ∧
  decode [0x3D, 0x10] = .ok (.jzA 0x10, []) ∧ decode [0x4A, 0x00] = .ok (.pushR 0, []) ∧
  decode [0x4D, 0x02] = .ok (.pop 2, []) ∧ decode [0x52] = .ok (.ret, []) ∧ decode [0x54, 0x02] = .ok (.outp 2, [])

/-! ### The step -/

/-- A step of a Ready core whose bytes at pc decode to an instruction is `exec` of that instruction in the state whose
pc is the address of the instruction's last byte (R62; that `exec` is entered in that state is the model's, log 28, and
that all operand bytes are fetched before any is validated is decision D12, log 12). -/
def Obligations.StepRunsDecoded : Prop :=
  ∀ (s : State) (i : Instr) (rest : List Byte),
    s.rs = .ready → InSpace s.pc → decode (s.bytesAt s.pc) = .ok (i, rest) →
    step s = exec i { s with pc := s.pc + ((i.length : Int) - 1) }

/-- The faults of the fetch, in their order, and what they leave: an out-of-range pc, then an invalid opcode, then an
operand byte beyond 0xFF, which leaves pc at 256 (R59, R60, R62, R232, R235; operand counts by opcode number are
decision D1, log 1, the unmasked pc is D5, log 5, F set by the entry is D8, log 8, the pc left is D21, log 21, that all
operand bytes are fetched before any is validated, an invalid register byte among them, is D12, log 12, and what the
reports carry is D20, log 20). -/
def Obligations.FetchFaults : Prop :=
  ∀ s : State, s.rs = .ready →
    (¬InSpace s.pc → step s = .next (faultState (.instructionPointerOutOfBounds s.pc) s)) ∧
    (InSpace s.pc → 85 ≤ (byteAt s s.pc.toNat).toNat →
      step s = .next (faultState (.invalidOpcode (byteAt s s.pc.toNat)) s)) ∧
    (InSpace s.pc → (byteAt s s.pc.toNat).toNat < 85 →
      255 < s.pc + operandCount (byteAt s s.pc.toNat).toNat →
      step s = .next (faultState (.addressOutOfBounds 256) { s with pc := 256 }))

/-- An instruction that neither transfers control nor is IN leaves, unless it faults, pc at the address after its last
byte: pc0 plus its length, not masked (R13, R62; not masked is decision D5, log 5). -/
def Obligations.PcAfterInstruction : Prop :=
  ∀ (s t : State) (i : Instr) (rest : List Byte),
    s.rs = .ready → InSpace s.pc → decode (s.bytesAt s.pc) = .ok (i, rest) → i.form ∉ transferVariants →
    step s = .next t → (∀ r, t.rs ≠ .faulted r) → t.pc = s.pc + i.length

/-- A Ready core always takes its step, and no instruction of the set stops the model in any state (R58, R62, R221,
R231; a port without an input device answers by decision D15, log 15, an invalid register byte faults by D7, log 7, and
that an IN from a keyboard with no byte, which R221 lets have no transition, answers a next state is the model's
choice, log 16). -/
def Obligations.EveryInstructionAnswers : Prop :=
  (∀ (i : Instr) (s : State), ∃ t, exec i s = .next t) ∧ (∀ s : State, s.rs = .ready → ∃ t, step s = .next t)

/-- A Faulted core stays as it is for any number of steps and delivers its report at each (R233; that the same report
is delivered again is decision D20, log 20, and the history of events is the model's, log 23). -/
def Obligations.FaultedReRaisesForever : Prop :=
  ∀ (s : State) (r : FaultReport) (k : Nat), s.rs = .faulted r →
    Host.Core.run Sys2Proof.core k s =
      .next ({ s with events := List.replicate k (.faultRaised r) ++ s.events } : State)

/-- A Halted core has no step (R224; decision D13, log 13). -/
def Obligations.HaltedHasNoStep : Prop :=
  ∀ s : State, s.rs = .halted → step s = .fault .stepInHalted

/-! ### Invariants -/

/-- Every step keeps the memory in its canonical form (the form is the model's, log 24; R18, R30). -/
def Obligations.StepKeepsMemoryCanonical : Prop :=
  ∀ s t : State, s.mem.wf → step s = .next t → t.mem.wf

/-- Every step keeps the ranges of pc and SP: pc in -16 to 270; SP in 0x80 to 0xBF, or 0x7F to 0xC0 once Faulted (R12,
R13, R22; the range of pc is decisions D5, D6 and D18, logs 5, 6 and 18, SP in the Faulted state D12, logs 12 and
21). -/
def Obligations.StepKeepsRanges : Prop :=
  ∀ s t : State, s.inRange → step s = .next t → t.inRange

/-- Every step keeps F equal to 1 exactly when the core is Faulted (R15; decision D8, log 8). -/
def Obligations.StepKeepsFaultFlag : Prop :=
  ∀ s t : State, s.faultFlagAgrees → step s = .next t → t.faultFlagAgrees

/-- The reset state meets the invariant that the three statements above say every step keeps (R22, R23, R261; the memory's
form is the model's, log 24, that F agrees with RS is decision D8, log 8, both resets at power-on D14, log 14). -/
def Obligations.ResetMeetsInvariant : Prop := State.reset.Inv

/-! ### What no instruction does: frames over the whole instruction set -/

/-- RS and F change only by HLT, to Halted, and by a fault, to Faulted with F set (R15, R17, R231; that a fault sets F and
that nothing else, POPF included, changes it is decision D8, log 8). -/
def Obligations.RunStateTransitions : Prop :=
  ∀ (i : Instr) (s t : State), exec i s = .next t →
    SameRunState s t ∨ (i = .hlt ∧ t.rs = .halted ∧ t.f = s.f) ∨ (∃ r, t.rs = .faulted r ∧ t.f = true)

/-- A step ends Halted only by running the HLT that stands at pc (R17, R223; that no step is taken in Halted is
decision D13, log 13). -/
def Obligations.OnlyHltHalts : Prop :=
  ∀ s t : State, step s = .next t → t.rs = .halted →
    s.rs = .ready ∧ InSpace s.pc ∧ byteAt s s.pc.toNat = Form.hlt.opcode

/-- Only PUSH, POP, PUSHF, POPF, CALL and RET write SP (R12, R21). -/
def Obligations.OnlyStackInstructionsMoveSp : Prop :=
  ∀ (i : Instr) (s t : State), exec i s = .next t → i.form ∉ stackVariants → t.sp = s.sp

/-- Only the ALU instructions and POPF write the flags (R14, R21; decision D9, log 9). -/
def Obligations.OnlyFlagWritersWriteFlags : Prop :=
  ∀ (i : Instr) (s t : State), exec i s = .next t → i.form ∉ flagWriters → t.flags = s.flags

/-- No instruction writes a general register but the one its destination byte names; IN writes AL (R21; that an invalid
register byte writes nothing is decision D7, log 7). -/
def Obligations.OnlyDestinationWritten : Prop :=
  ∀ (i : Instr) (s t : State), exec i s = .next t → ∀ q : Reg, destination i ≠ some q.toByte → t.reg q = s.reg q

/-- No instruction changes a byte of memory but the one at the address it stores to; an instruction that stores nothing
changes none (R21, R37; the address is computed with the unmasked sums of decision D6, log 6, and what a faulting
instruction leaves is D12, log 12). -/
def Obligations.OnlyStoreAddressWritten : Prop :=
  ∀ (i : Instr) (s t : State), exec i s = .next t → ∀ a : Nat, storeAddress i s ≠ some a → byteAt t a = byteAt s a

/-- Each instruction emits at most one `Display`, `PortOut` or `PortIn` event and at most one `FaultRaised`, last; only
IN takes an input (R32, R220, R231, R273; the history in which they stand is the model's, log 23, how inputs are
supplied and answered decision D15, log 15). -/
def Obligations.EventsPerStep : Prop :=
  ∀ (i : Instr) (s t : State), exec i s = .next t →
    (∃ faults io : List Event, t.events = faults ++ io ++ s.events ∧ faults.length ≤ 1 ∧ io.length ≤ 1 ∧
      (∀ e ∈ faults, ∃ r, e = .faultRaised r) ∧ (∀ e ∈ io, ∀ r, e ≠ .faultRaised r)) ∧
    ((∀ p, i ≠ .inp p) → SameInputs s t)

/-! ### Faults -/

/-- What a faulting instruction leaves, by its report: a stack overflow leaves SP one less, the byte pushed stored
where SP was and every other byte as before; a stack underflow leaves SP one more and memory as before; every other
fault leaves memory and SP as before. In each case pc is where the fetch left it, every general register and flag is as
before, F is set, the report is the newest event and no input was taken (R200 to R205, R207, R215, R216, R231, R232; F
is decision D8, log 8, what is left D12 and D21, logs 12 and 21, that the byte PUSH [reg] based on SP stores is read at
the address before the push D19, R205, log 19, SR's bits 5 to 7 in the byte of PUSHF D8, log 8, the forms of PUSH and
CALL D4, log 4, an address not masked D6, log 6, an invalid register byte D7, log 7, and what the reports carry D20,
log 20). -/
def Obligations.FaultsArePrecise : Prop :=
  ∀ (i : Instr) (s t : State) (r : FaultReport),
    exec i s = .next t → t.rs = .faulted r → (∀ r', s.rs ≠ .faulted r') →
    t.pc = s.pc ∧ SameRegisters s t ∧ t.flags = s.flags ∧ t.f = true ∧ t.events.head? = some (.faultRaised r) ∧
    SameInputs s t ∧
    match r with
    | .stackOverflow v =>
      v = s.sp - 1 ∧ v.toNat < 0x80 ∧ t.sp = v ∧ pushedByte i s = some (byteAt t s.sp.toNat) ∧
        SameMemoryBut s.sp.toNat s t
    | .stackUnderflow v => v = s.sp + 1 ∧ 0xBF < v.toNat ∧ t.sp = v ∧ SameMemory s t
    | _ => t.sp = s.sp ∧ SameMemory s t

/-- An instruction with a Register operand byte of 4 to 255 raises InvalidRegister with the first such byte and changes
nothing else, whatever its other operands are (R52, R230, R232, R235; the fault is decision D7, log 7, F set D8, log 8,
that it comes before every other check D12, log 12, the pc left D21, log 21, and what the report carries D20, log
20). -/
def Obligations.InvalidRegisterByteFaults : Prop :=
  ∀ (i : Instr) (s : State) (b : RegByte), i.regBytes.find? (fun c => decide (4 ≤ c.toNat)) = some b →
    exec i s = .next (faultState (.invalidRegister b) s)

/-- An instruction with valid register bytes whose computed data address is outside 0 to 255 raises AddressOutOfBounds
with that exact address and changes nothing else: no register, no flag, no byte, SP not moved (R31 to R33, R230, R232;
that the address is not masked is decision D6, log 6, F set D8, log 8, and what the fault leaves, pc as the fetch left
it and SP not moved, D12 and D21, logs 12 and 21, the address of PUSH [reg] based on SP before the push D19, log 19,
and the forms of the logical instructions and of PUSH D4, log 4). -/
def Obligations.DataAddressOutOfBoundsFaults : Prop :=
  ∀ (i : Instr) (s : State) (ea : Int), WellFormed i = true → dataAddress i s = some ea → ¬InSpace ea →
    exec i s = .next (faultState (.addressOutOfBounds ea) s)

/-- DIV, in its four forms `divI`, `divR`, `divA`, `divX`, by a divisor of 0 raises DivisionByZero for every dividend and
changes nothing else (R116 to R119, R123, R231, R232; F set is decision D8, log 8, the order of checks and the pc left
D12 and D21, logs 12 and 21). -/
def Obligations.DivisionByZeroFaults : Prop :=
  ∀ (s : State) (d : Reg) (i : Instr), SourceForm .divI .divR .divA .divX s d i 0 →
    exec i s = .next (faultState .divisionByZero s)

/-! ### Memory and addresses -/

/-- R31: `MemRead` of an address below 0 or above 255 raises AddressOutOfBounds with that address; of any other address
the result is M[addr], and the state handed on is the state as it was: a read has no side effect at any address. -/
def Obligations.MemReadRule : Prop :=
  ∀ (addr : Int) (s : State),
    (addr < 0 ∨ addr > 255 →
      ∀ k : Byte → Result, withRead addr s k = takeFault (.addressOutOfBounds addr) s) ∧
    (0 ≤ addr ∧ addr ≤ 255 →
      ∀ k : Byte → State → Result, withRead addr s (fun v => k v s) = k (byteAt s addr.toNat) s)

/-- `MemWrite`: outside 0 to 255 it raises AddressOutOfBounds and M is unchanged; inside, the byte is written, every
other byte is as before, and a store to the display region emits one Display event with address and byte (R32; the
event's content is decision D28, log 23, F set by the fault D8, log 8). -/
def Obligations.MemWriteRule : Prop :=
  ∀ (addr : Int) (v : Byte) (s : State) (k : State → Result),
    (¬InSpace addr → withWrite addr v s k = .next (faultState (.addressOutOfBounds addr) s)) ∧
    (InSpace addr → ∃ t, withWrite addr v s k = k t ∧ byteAt t addr.toNat = v ∧ SameMemoryBut addr.toNat s t ∧
      t.events = displayed addr.toNat v s.events ∧ SameRegisters s t ∧ t.sp = s.sp ∧ t.pc = s.pc ∧
      t.flags = s.flags ∧ SameRunState s t ∧ SameInputs s t)

/-- The RegisterIndirect address of an operand byte: v mod 8 below 4 selects a register as base and 4 to 7 SP; v div 8
is the offset, read as -16 to 15; the sum is not masked and lies in -16 to 270 (R53; AL to DL as 0 to 3 is decision D2,
log 2, not masked D6, log 6, and that the fields 5 to 7 are SP is deduced, log 26). -/
def Obligations.RegisterIndirectAddress : Prop :=
  ∀ (s : State) (v : Byte),
    s.eaInd (.ofByte v) =
      (if v.toNat % 8 = 0 then s.al else if v.toNat % 8 = 1 then s.bl else if v.toNat % 8 = 2 then s.cl
        else if v.toNat % 8 = 3 then s.dl else s.sp).toNat +
      (if v.toNat / 8 < 16 then ((v.toNat / 8 : Nat) : Int) else ((v.toNat / 8 : Nat) : Int) - 32) ∧
    -16 ≤ s.eaInd (.ofByte v) ∧ s.eaInd (.ofByte v) ≤ 270

/-- The byte of a DirectAddress operand is the address (R54). As a data operand it designates M[byte]: the load, the two
stores, the push and the ten ALU instructions read or write exactly that byte, the push and the ALU instructions doing
what their immediate forms do with it. As the operand of a jump or a call it is the target itself: a jump goes there or
on to `next`, and each can go there (the forms of the logical instructions, of PUSH and of CALL are decision D4, log 4,
that a conditional jump looks at the flags as it does D3, log 3). -/
def Obligations.DirectAddressIsLiteral : Prop :=
  ∀ (s : State) (a : Byte),
    (∀ d : Reg, ∃ t, exec (.movRA d.toByte a) s = .next t ∧ t.reg d = byteAt s a.toNat) ∧
    (∀ r : Reg, ∃ t, exec (.movAR a r.toByte) s = .next t ∧ byteAt t a.toNat = s.reg r ∧ SameMemoryBut a.toNat s t) ∧
    (∀ k : Byte, ∃ t, exec (.movAI a k) s = .next t ∧ byteAt t a.toNat = k ∧ SameMemoryBut a.toNat s t) ∧
    (exec (.pushA a) s = exec (.pushI (byteAt s a.toNat)) s) ∧
    (∀ dir imm : Byte → Byte → Instr, DirectBesideImmediate dir imm →
      ∀ b : RegByte, exec (dir b a) s = exec (imm b (byteAt s a.toNat)) s) ∧
    (∀ (dir : Byte → Instr) (ind : Indirect → Instr) (taken : Flags → Bool), JumpFamily dir ind taken →
      (∃ t, exec (dir a) s = .next t ∧ (t.pc = a.toNat ∨ t.pc = s.pc + 1)) ∧
      ∃ (fl : Flags) (t : State), exec (dir a) { s with flags := fl } = .next t ∧ t.pc = a.toNat) ∧
    (0x81 ≤ s.sp.toNat ∧ s.sp.toNat ≤ 0xBF → ∃ t, exec (.callA a) s = .next t ∧ t.pc = a.toNat)

/-- The StackOffset address is SP plus the offset byte read as two's complement, not masked, and lies in 0 to 318
for a legal SP; the two instructions with a StackOffset operand access that address and never write SP; with SP = 0xBD,
0x02 gives 0xBF, 0xFF gives 0xBC and 0x7F gives 0x13C (R56, R89, R90; that it is not masked, and with it the range to 318
and 0x13C, is decision D6, log 6). -/
def Obligations.StackOffsetAddress : Prop :=
  (∀ (s : State) (o : Byte),
    s.eaSp o = s.sp.toNat + (if o.toNat < 128 then (o.toNat : Int) else (o.toNat : Int) - 256) ∧
    (0x80 ≤ s.sp.toNat ∧ s.sp.toNat ≤ 0xBF → 0 ≤ s.eaSp o ∧ s.eaSp o ≤ 318)) ∧
  (∀ (s t : State) (b o : Byte), exec (.movRS b o) s = .next t ∨ exec (.movSR o b) s = .next t → t.sp = s.sp) ∧
  (∀ (s : State) (d : Reg) (o : Byte), InSpace (s.eaSp o) →
    (∃ t, exec (.movRS d.toByte o) s = .next t ∧ t.reg d = byteAt s (s.eaSp o).toNat) ∧
    (∃ t, exec (.movSR o d.toByte) s = .next t ∧ byteAt t (s.eaSp o).toNat = s.reg d)) ∧
  (∀ s : State, s.sp = 0xBD → s.eaSp 0x02 = 0xBF ∧ s.eaSp 0xFF = 0xBC ∧ s.eaSp 0x7F = 0x13C)

/-- The status byte is F + 2*C + 4*O + 8*Z + 16*S; bits 7 to 5 read 0 (R16; decision D8, log 8). -/
def Obligations.StatusByteLayout : Prop :=
  ∀ s : State,
    s.sr.toNat = s.f.toNat + 2 * s.flags.c.toNat + 4 * s.flags.o.toNat + 8 * s.flags.z.toNat + 16 * s.flags.s.toNat ∧
    s.sr.getLsbD 0 = s.f ∧ s.sr.getLsbD 1 = s.flags.c ∧ s.sr.getLsbD 2 = s.flags.o ∧ s.sr.getLsbD 3 = s.flags.z ∧
    s.sr.getLsbD 4 = s.flags.s ∧ s.sr.getLsbD 5 = false ∧ s.sr.getLsbD 6 = false ∧ s.sr.getLsbD 7 = false

/-! ### Data movement -/

/-- MOV to a register, `movRR`, `movRI`, `movRA`, `movRX`, `movRS`, completes: the register takes the byte, no flag and
nothing else changes (R80 to R83, R86, R89; no flag: decision D9, log 9). -/
def Obligations.MovToRegister : Prop :=
  ∀ (s : State) (d : Reg) (i : Instr) (v : Byte), LoadForm s d i v →
    ∃ t, exec i s = .next t ∧ t.reg d = v ∧ t.flags = s.flags ∧ OnlyRegisterWritten d s t

/-- MOV to memory, `movAR`, `movXR`, `movAI`, `movXI`, `movSR`, with its address in 0 to 255 completes: that byte takes
the value, every other byte, every register and flag is as before, and a display address emits one Display event (R84,
R85, R87, R88, R90, R32; no flag is decision D9, log 9, the event's content D28, log 23). -/
def Obligations.MovToMemory : Prop :=
  ∀ (s : State) (i : Instr) (addr : Int) (v : Byte), StoreForm s i addr v → InSpace addr →
    ∃ t, exec i s = .next t ∧ byteAt t addr.toNat = v ∧ SameMemoryBut addr.toNat s t ∧ SameRegisters s t ∧
      t.sp = s.sp ∧ t.flags = s.flags ∧ SameRunState s t ∧ SameInputs s t ∧
      t.events = displayed addr.toNat v s.events ∧ t.pc = s.pc + 1

/-! ### Arithmetic -/

/-- ADD, `addI`, `addR`, `addA`, `addX`, completes: the sum modulo 256; C says the unsigned sum exceeds 255, O that the
signed sum is outside -128 to 127, Z and S are of the result (R100 to R104, R120). -/
def Obligations.AddResult : Prop :=
  ∀ (s : State) (d : Reg) (i : Instr) (b : Byte), SourceForm .addI .addR .addA .addX s d i b →
    ∃ t, exec i s = .next t ∧ (t.reg d).toNat = ((s.reg d).toNat + b.toNat) % 256 ∧
      (t.flags.c = true ↔ 255 < (s.reg d).toNat + b.toNat) ∧
      (t.flags.o = true ↔ (s.reg d).toInt + b.toInt < -128 ∨ 127 < (s.reg d).toInt + b.toInt) ∧
      ZeroSignOf t (t.reg d) ∧ OnlyRegisterWritten d s t

/-- SUB, `subI`, `subR`, `subA`, `subX`, completes: the difference modulo 256; C is the unsigned borrow, O says the signed
difference is outside -128 to 127 (R105 to R108, R120). -/
def Obligations.SubResult : Prop :=
  ∀ (s : State) (d : Reg) (i : Instr) (b : Byte), SourceForm .subI .subR .subA .subX s d i b →
    ∃ t, exec i s = .next t ∧ (t.reg d).toNat = ((s.reg d).toNat + 256 - b.toNat) % 256 ∧
      (t.flags.c = true ↔ (s.reg d).toNat < b.toNat) ∧
      (t.flags.o = true ↔ (s.reg d).toInt - b.toInt < -128 ∨ 127 < (s.reg d).toInt - b.toInt) ∧
      ZeroSignOf t (t.reg d) ∧ OnlyRegisterWritten d s t

/-- CMP (R130 to R134), `cmpI`, `cmpR`, `cmpA`, `cmpX`, completes with the flags SUB of the same operands writes, and no register
and no byte of memory is written: Z means a = b, C means a < b unsigned, C and Z both 0 means a > b, and S differing
from O means a < b signed. -/
def Obligations.CmpOrdersOperands : Prop :=
  ∀ (s : State) (d : Reg) (i : Instr) (b : Byte), SourceForm .cmpI .cmpR .cmpA .cmpX s d i b →
    ∃ t u, exec i s = .next t ∧ exec (.subI d.toByte b) s = .next u ∧ t.flags = u.flags ∧
      (t.flags.z = true ↔ s.reg d = b) ∧ (t.flags.c = true ↔ (s.reg d).toNat < b.toNat) ∧
      (t.flags.c = false ∧ t.flags.z = false ↔ b.toNat < (s.reg d).toNat) ∧
      (t.flags.s ≠ t.flags.o ↔ (s.reg d).toInt < b.toInt) ∧
      SameRegisters s t ∧ OnlyRegisterWritten d s t

/-- INC, DEC and NEG complete: INC adds 1 with C for 0xFF and O for 0x7F; DEC takes 1 away with O for 0x80 and leaves C
as it was; NEG negates with C unless the operand is 0 and O for 0x80 (R109 to R111; that each takes one Register is
decision D4, log 4). -/
def Obligations.IncDecNegResult : Prop :=
  ∀ (s : State) (d : Reg),
    (∃ t, exec (.inc d.toByte) s = .next t ∧ (t.reg d).toNat = ((s.reg d).toNat + 1) % 256 ∧
      (t.flags.c = true ↔ s.reg d = 0xFF) ∧ (t.flags.o = true ↔ s.reg d = 0x7F) ∧
      ZeroSignOf t (t.reg d) ∧ OnlyRegisterWritten d s t) ∧
    (∃ t, exec (.dec d.toByte) s = .next t ∧ (t.reg d).toNat = ((s.reg d).toNat + 255) % 256 ∧
      t.flags.c = s.flags.c ∧ (t.flags.o = true ↔ s.reg d = 0x80) ∧
      ZeroSignOf t (t.reg d) ∧ OnlyRegisterWritten d s t) ∧
    (∃ t, exec (.neg d.toByte) s = .next t ∧ (t.reg d).toNat = (256 - (s.reg d).toNat) % 256 ∧
      (t.flags.c = true ↔ s.reg d ≠ 0) ∧ (t.flags.o = true ↔ s.reg d = 0x80) ∧
      ZeroSignOf t (t.reg d) ∧ OnlyRegisterWritten d s t)

/-- MUL, `mulI`, `mulR`, `mulA`, `mulX`, completes: the product modulo 256; C and O both say that the product is 256 or
more; Z and S are of the masked result, so 0 as an operand gives 0 with Z set and C and O clear (R112 to R115, R122;
unsigned: decision D10, log 10). -/
def Obligations.MulResult : Prop :=
  ∀ (s : State) (d : Reg) (i : Instr) (b : Byte), SourceForm .mulI .mulR .mulA .mulX s d i b →
    ∃ t, exec i s = .next t ∧ (t.reg d).toNat = ((s.reg d).toNat * b.toNat) % 256 ∧
      (t.flags.c = true ↔ 256 ≤ (s.reg d).toNat * b.toNat) ∧ t.flags.o = t.flags.c ∧
      ZeroSignOf t (t.reg d) ∧
      (s.reg d = 0 ∨ b = 0 → t.reg d = 0 ∧ t.flags = { c := false, o := false, z := true, s := false }) ∧
      OnlyRegisterWritten d s t

/-- DIV, `divI`, `divR`, `divA`, `divX`, by a divisor that is not 0 completes: the unsigned floor quotient; C and O are
0, Z says the dividend is below the divisor, S that the divisor is 1 and the dividend 0x80 or more (R116 to R119, R123;
unsigned, the remainder discarded: decision D10, log 10). -/
def Obligations.DivResult : Prop :=
  ∀ (s : State) (d : Reg) (i : Instr) (b : Byte), SourceForm .divI .divR .divA .divX s d i b → b ≠ 0 →
    ∃ t, exec i s = .next t ∧ (t.reg d).toNat = (s.reg d).toNat / b.toNat ∧
      t.flags.c = false ∧ t.flags.o = false ∧ (t.flags.z = true ↔ (s.reg d).toNat < b.toNat) ∧
      (t.flags.s = true ↔ b = 1 ∧ 0x80 ≤ (s.reg d).toNat) ∧ OnlyRegisterWritten d s t

/-- R124: the three examples the source gives for the flags, in every form of the instruction: 0x64 + 0x64, 0x00 - 0x01
and 20 * 20. -/
def Obligations.SourceFlagExamples : Prop :=
  ∀ (s : State) (d : Reg) (i : Instr),
    (SourceForm .addI .addR .addA .addX s d i 0x64 → s.reg d = 0x64 →
      ∃ t, exec i s = .next t ∧ t.reg d = 0xC8 ∧ t.flags = { c := false, o := true, z := false, s := true }) ∧
    (SourceForm .subI .subR .subA .subX s d i 0x01 → s.reg d = 0x00 →
      ∃ t, exec i s = .next t ∧ t.reg d = 0xFF ∧ t.flags.c = true ∧ t.flags.o = false ∧ t.flags.s = true) ∧
    (SourceForm .mulI .mulR .mulA .mulX s d i 20 → s.reg d = 20 →
      ∃ t, exec i s = .next t ∧ t.reg d = 0x90 ∧ t.flags.c = true ∧ t.flags.o = true)

/-! ### Logical and shift -/

/-- AND, OR and XOR, in their four forms each (`andI` to `xorX`), complete: every bit of the result is the operation of the
two operands' bits; C and O are cleared (R142 to R153; the four forms are decision D4, log 4). -/
def Obligations.BitwiseResult : Prop :=
  ∀ (s : State) (d : Reg) (i : Instr) (b : Byte),
    (SourceForm .andI .andR .andA .andX s d i b →
      ∃ t, exec i s = .next t ∧ (∀ k < 8, (t.reg d).getLsbD k = ((s.reg d).getLsbD k && b.getLsbD k)) ∧
        t.flags.c = false ∧ t.flags.o = false ∧ ZeroSignOf t (t.reg d) ∧ OnlyRegisterWritten d s t) ∧
    (SourceForm .orI .orR .orA .orX s d i b →
      ∃ t, exec i s = .next t ∧ (∀ k < 8, (t.reg d).getLsbD k = ((s.reg d).getLsbD k || b.getLsbD k)) ∧
        t.flags.c = false ∧ t.flags.o = false ∧ ZeroSignOf t (t.reg d) ∧ OnlyRegisterWritten d s t) ∧
    (SourceForm .xorI .xorR .xorA .xorX s d i b →
      ∃ t, exec i s = .next t ∧ (∀ k < 8, (t.reg d).getLsbD k = ((s.reg d).getLsbD k ^^ b.getLsbD k)) ∧
        t.flags.c = false ∧ t.flags.o = false ∧ ZeroSignOf t (t.reg d) ∧ OnlyRegisterWritten d s t)

/-- NOT completes: every one of the 8 bits is complemented; C and O are cleared (R140, R154; that it takes one Register
is decision D4, log 4). -/
def Obligations.NotResult : Prop :=
  ∀ (s : State) (d : Reg),
    ∃ t, exec (.not d.toByte) s = .next t ∧ (∀ k < 8, (t.reg d).getLsbD k = !(s.reg d).getLsbD k) ∧
      t.flags.c = false ∧ t.flags.o = false ∧ ZeroSignOf t (t.reg d) ∧ OnlyRegisterWritten d s t

/-- SHL, `shlI`, `shlR`, `shlA`, `shlX`, by an amount b that is not 0 completes: a * 2^b modulo 256; C is bit 8 - b of the
original operand for b up to 8 and 0 beyond; O is 0 (R141, R155 to R158; amounts of 32 and more are decision D11,
log 11, the four forms D4, log 4). -/
def Obligations.ShlResult : Prop :=
  ∀ (s : State) (d : Reg) (i : Instr) (b : Byte), SourceForm .shlI .shlR .shlA .shlX s d i b → b ≠ 0 →
    ∃ t, exec i s = .next t ∧ (t.reg d).toNat = ((s.reg d).toNat * 2 ^ b.toNat) % 256 ∧
      (t.flags.c = true ↔ b.toNat ≤ 8 ∧ (s.reg d).getLsbD (8 - b.toNat) = true) ∧ t.flags.o = false ∧
      ZeroSignOf t (t.reg d) ∧ OnlyRegisterWritten d s t

/-- SHR, `shrI`, `shrR`, `shrA`, `shrX`, by an amount b that is not 0 completes: the floor of a / 2^b; C is bit b - 1 of the
original operand for b up to 8 and 0 beyond; O and S are 0 (R141, R159 to R162; amounts of 32 and more are decision D11,
log 11, the four forms D4, log 4). -/
def Obligations.ShrResult : Prop :=
  ∀ (s : State) (d : Reg) (i : Instr) (b : Byte), SourceForm .shrI .shrR .shrA .shrX s d i b → b ≠ 0 →
    ∃ t, exec i s = .next t ∧ (t.reg d).toNat = (s.reg d).toNat / 2 ^ b.toNat ∧
      (t.flags.c = true ↔ b.toNat ≤ 8 ∧ (s.reg d).getLsbD (b.toNat - 1) = true) ∧ t.flags.o = false ∧
      t.flags.s = false ∧ ZeroSignOf t (t.reg d) ∧ OnlyRegisterWritten d s t

/-- SHL and SHR, in their four forms each, by an amount of 0 change nothing but pc: no register and no flag (R141,
R155 to R162; the four forms are decision D4, log 4). -/
def Obligations.ShiftByZeroChangesNothing : Prop :=
  ∀ (imm reg dir : Byte → Byte → Instr) (ind : Byte → Indirect → Instr), ShiftFamily imm reg dir ind →
    ∀ (s : State) (d : Reg) (i : Instr), SourceForm imm reg dir ind s d i 0 →
      exec i s = .next { s with pc := s.pc + 1 }

/-! ### Control flow -/

/-- JMP and the eight conditional jumps, direct and register-indirect, complete: pc is the target when the family's flag
condition holds and `next` when it does not; nothing else changes, memory is not read and the target is not checked
(R170 to R189; the conditions are decision D3, log 3, a target neither masked nor checked D5, log 5, no flag D9, log 9, the indirect
target D18, log 18). -/
def Obligations.JumpsWriteOnlyPc : Prop :=
  ∀ (dir : Byte → Instr) (ind : Indirect → Instr) (taken : Flags → Bool), JumpFamily dir ind taken →
    ∀ s : State,
      (∀ a : Byte, exec (dir a) s = .next { s with pc := if taken s.flags then (a.toNat : Int) else s.pc + 1 }) ∧
      (∀ x : Indirect, exec (ind x) s = .next { s with pc := if taken s.flags then s.eaInd x else s.pc + 1 })

/-! ### Stack and subroutine -/

/-- PUSH in its four forms and PUSHF with SP in 0x81 to 0xBF complete: M[SP] takes the byte, SP is one less, every
other byte, register and flag is as before (R200, R202 to R205, R207; no flag is decision D9, log 9, the four forms D4,
log 4, and that PUSH [reg] based on SP uses SP as it is before the push D19, log 19; the bits 5 to 7 of the byte of
PUSHF are 0 by D8, log 8). -/
def Obligations.PushStoresBelow : Prop :=
  ∀ (s : State) (i : Instr) (v : Byte), PushForm s i v → 0x81 ≤ s.sp.toNat ∧ s.sp.toNat ≤ 0xBF →
    ∃ t, exec i s = .next t ∧ byteAt t s.sp.toNat = v ∧ t.sp.toNat = s.sp.toNat - 1 ∧
      SameMemoryBut s.sp.toNat s t ∧ SameRegisters s t ∧ t.flags = s.flags ∧ SameRunState s t ∧ SameInputs s t ∧
      t.events = s.events ∧ t.pc = s.pc + 1

/-- CALL, `callA` and `callX`, with SP in 0x81 to 0xBF completes: M[SP] takes the low byte of `next`, SP is one less,
and pc is the target, computed before the push (R200, R215, R216; before the push is decision D19, log 19, an indirect
target that is the address itself D18, log 18, not masked D5, log 5, the two forms D4, log 4, and no flag D9, log
9). -/
def Obligations.CallPushesReturnAddress : Prop :=
  ∀ (s : State) (i : Instr) (target : Int), CallForm s i target → 0x81 ≤ s.sp.toNat ∧ s.sp.toNat ≤ 0xBF →
    ∃ t, exec i s = .next t ∧ ((byteAt t s.sp.toNat).toNat : Int) = (s.pc + 1) % 256 ∧
      t.sp.toNat = s.sp.toNat - 1 ∧ t.pc = target ∧ SameMemoryBut s.sp.toNat s t ∧ SameRegisters s t ∧
      t.flags = s.flags ∧ SameRunState s t ∧ SameInputs s t ∧ t.events = s.events

/-- A push or a call with SP = 0x80 raises StackOverflow(0x7F) after M[0x80] and SP are written; pc is not the target
(R200, R202 to R205, R207, R215, R216, R232, R235; the byte stored, SP moved and pc left are decisions D12 and D21,
logs 12 and 21, F set D8, log 8, the source address taken before the push D19, log 19, no flag D9, log 9, the byte of
PUSHF D8, log 8, the forms D4, log 4, and what the report carries D20, log 20). -/
def Obligations.PushOverflowFaults : Prop :=
  ∀ (s : State) (i : Instr) (v : Byte),
    (PushForm s i v ∨ (∃ target, CallForm s i target) ∧ (v.toNat : Int) = (s.pc + 1) % 256) → s.sp = 0x80 →
    ∃ t, exec i s = .next t ∧ t.rs = .faulted (.stackOverflow 0x7F) ∧ t.f = true ∧
      t.events = .faultRaised (.stackOverflow 0x7F) :: s.events ∧ byteAt t 0x80 = v ∧ t.sp = 0x7F ∧ t.pc = s.pc ∧
      SameMemoryBut 0x80 s t ∧ SameRegisters s t ∧ t.flags = s.flags ∧ SameInputs s t

/-- POP, POPF and RET with SP in 0x80 to 0xBE complete: SP is one more and the byte M[SP] there goes to the register,
to C, O, Z, S by its bits 1 to 4, or to pc; nothing else changes (R201, R206, R208, R217; the bits POPF ignores are
decision D8, log 8, and that POP and RET leave the flags D9, log 9, and POP's one form D4, log 4). -/
def Obligations.PopTakesFromAbove : Prop :=
  ∀ s : State, 0x80 ≤ s.sp.toNat ∧ s.sp.toNat ≤ 0xBE →
    (∀ r : Reg, ∃ t, exec (.pop r.toByte) s = .next t ∧ t.reg r = byteAt s (s.sp.toNat + 1) ∧
      t.sp.toNat = s.sp.toNat + 1 ∧ SameRegistersBut r s t ∧ t.flags = s.flags ∧ SameMemory s t ∧
      SameRunState s t ∧ SameInputs s t ∧ t.events = s.events ∧ t.pc = s.pc + 1) ∧
    (∃ t, exec .popf s = .next t ∧
      t.flags = { c := (byteAt s (s.sp.toNat + 1)).getLsbD 1, o := (byteAt s (s.sp.toNat + 1)).getLsbD 2,
                  z := (byteAt s (s.sp.toNat + 1)).getLsbD 3, s := (byteAt s (s.sp.toNat + 1)).getLsbD 4 } ∧
      t.sp.toNat = s.sp.toNat + 1 ∧ SameRegisters s t ∧ SameMemory s t ∧ SameRunState s t ∧ SameInputs s t ∧
      t.events = s.events ∧ t.pc = s.pc + 1) ∧
    (∃ t, exec .ret s = .next t ∧ t.pc = (byteAt s (s.sp.toNat + 1)).toNat ∧ t.sp.toNat = s.sp.toNat + 1 ∧
      t.flags = s.flags ∧ SameRegisters s t ∧ SameMemory s t ∧ SameRunState s t ∧ SameInputs s t ∧
      t.events = s.events)

/-- A pop with SP = 0xBF raises StackUnderflow(0xC0) with SP = 0xC0; register, flags, pc and memory are not written
(R201, R206, R208, R217, R232; that the destination is not written is decision D12, log 12, the pc left D21, log 21, F
set D8, log 8, POP's one form D4, log 4, and what the report carries D20, log 20). -/
def Obligations.PopUnderflowFaults : Prop :=
  ∀ (s : State) (i : Instr), PopForm i → s.sp = 0xBF →
    exec i s = .next (faultState (.stackUnderflow 0xC0) { s with sp := 0xC0 })

/-- What was pushed is what is popped: after PUSH of any form or PUSHF, a POP gives the byte and SP is back; after
PUSHF, a POPF with any flags in between restores C, O, Z and S; after CALL, RET sets pc to the low byte of the address
after the CALL (R206 to R209, R215 to R217; an indirect call's target is decision D18, log 18, addresses based on SP
are taken before the push by D19, log 19, the forms are D4, log 4, and POPF's ignored bits and SR's bits 5 to 7 are D8,
log 8). -/
def Obligations.PopUndoesPush : Prop :=
  ∀ s : State, 0x81 ≤ s.sp.toNat ∧ s.sp.toNat ≤ 0xBF →
    (∀ (i : Instr) (v : Byte), PushForm s i v → ∃ t, exec i s = .next t ∧
      ∀ r : Reg, ∃ u, exec (.pop r.toByte) t = .next u ∧ u.reg r = v ∧ u.sp = s.sp) ∧
    (∃ t, exec .pushf s = .next t ∧
      ∀ between : Flags, ∃ u, exec .popf { t with flags := between } = .next u ∧ u.flags = s.flags ∧ u.sp = s.sp) ∧
    (∀ (i : Instr) (target : Int), CallForm s i target → ∃ t, exec i s = .next t ∧ t.pc = target ∧
      ∃ u, exec .ret t = .next u ∧ u.pc = (s.pc + 1) % 256 ∧ u.sp = s.sp)

/-! ### Input, output and halt -/

/-- IN completes with the oldest byte supplied for its port, which leaves the other waiting bytes in place; with none
supplied, a port other than the keyboard's completes with the environment's answer, of which nothing is known; AL alone
is written, no flag, and the event names port and answer (R220, R221; decisions D9, D15, logs 9, 15; the numbering of
the free answers is log 25, the event history log 23). -/
def Obligations.InReadsPort : Prop :=
  ∀ (s : State) (p : Byte),
    (∀ (v : Byte) (before after : List PortAnswer),
      s.inbox = before ++ { port := p, value := v } :: after → (∀ a ∈ before, a.port ≠ p) →
      exec (.inp p) s = .next { s with
        al := v, inbox := before ++ after, events := .portIn p v :: s.events, pc := s.pc + 1 }) ∧
    ((∀ a ∈ s.inbox, a.port ≠ p) → p ≠ 0x01 →
      ∃ v, exec (.inp p) s = .next { s with
        al := v, draws := s.draws + 1, events := .portIn p v :: s.events, pc := s.pc + 1 })

/-- A Ready core whose instruction at pc is IN 0x01 and whose keyboard has supplied no byte makes no progress: the step
changes nothing, pc included (R221, R243; that the hold is a step with no change is the model's, log 16). -/
def Obligations.KeyboardHoldsCore : Prop :=
  ∀ (s : State) (rest : List Byte), s.rs = .ready → InSpace s.pc →
    decode (s.bytesAt s.pc) = .ok (.inp 0x01, rest) → (∀ a ∈ s.inbox, a.port ≠ 0x01) → step s = .next s

/-- OUT completes at every port: AL is presented, the event is recorded, and nothing else changes; HLT completes: RS is
Halted and pc `next`, nothing else changes (R220, R222, R223; that both leave the flags is decision D9, log 9, the event history log 23). -/
def Obligations.OutAndHltComplete : Prop :=
  (∀ (s : State) (p : Byte),
    exec (.outp p) s = .next { s with events := .portOut p s.al :: s.events, pc := s.pc + 1 }) ∧
  (∀ s : State, exec .hlt s = .next { s with rs := .halted, pc := s.pc + 1 })

/-! ### The assembler (surrounding software) -/

/-- What the assembler puts out is at most 192 bytes long, for any source text (R71; the error that enforces it is decision
D27, log 27). -/
def Obligations.AssemblerOutputFitsProgramRegion : Prop :=
  ∀ (source : List Char) (out : Asm.Output), Asm.assemble source = .ok out → out.bytes.length ≤ 192
end

