-- ==== Sys2Proof/Laws/Assembler.lean ====
section
/-! SUPPORT. What each operation of the assembler's two passes can do, said once (R68, R70, R71). -/

namespace Sys2Proof.Asm

open Sys2Proof.Machine (params)

/-- An emission that succeeds adds one byte at a cursor below 192 and advances the cursor by one (R68, R71). -/
theorem emit_ok {p q : Pass} {line : Nat} {value : Byte} {patch : Option (List Char)}
    (h : p.emit line value patch = .ok q) :
    p.cursor < 192 ∧
      q = { p with
        cursor := p.cursor + 1
        bytes := { addr := p.cursor, value := value, patch := patch, line := line } :: p.bytes } := by
  unfold Pass.emit at h
  split at h
  next hlt => exact ⟨hlt, (Except.ok.inj h).symm⟩
  · exact nomatch h

/-- A label definition that succeeds adds the label at the cursor and nothing else (R64). -/
theorem define_ok {p q : Pass} {name : List Char} (h : p.define name = .ok q) :
    q = { p with labels := (params.labelKey name, p.cursor) :: p.labels } := by
  simp only [Pass.define] at h
  split at h
  · exact nomatch h
  · exact (Except.ok.inj h).symm

/-- Every overwrite of pass 2 is at the address of a recorded label reference (R70). -/
theorem mem_patches {labels : List (List Char × Nat)} {emitted : List Emitted} {written : List (Nat × Byte)}
    (h : patches labels emitted = .ok written) {w : Nat × Byte} (hw : w ∈ written) :
    ∃ e ∈ emitted, e.addr = w.1 ∧ ∃ name, e.patch = some name ∧ resolve labels name e.line = .ok w.2 := by
  induction emitted generalizing written with
  | nil => cases h; cases hw
  | cons e rest ih =>
    simp only [patches] at h
    cases hp : e.patch with
    | none =>
      rw [hp] at h
      obtain ⟨e', he', hrest⟩ := ih h hw
      exact ⟨e', List.mem_cons_of_mem _ he', hrest⟩
    | some name =>
      rw [hp] at h
      cases hb : resolve labels name e.line with
      | error x => simp only [hb] at h; exact nomatch h
      | ok b =>
        simp only [hb] at h
        cases hl : patches labels rest with
        | error x => simp only [hl] at h; exact nomatch h
        | ok later =>
          simp only [hl] at h
          obtain rfl : (e.addr, b) :: later = written := Except.ok.inj h
          rcases List.mem_cons.1 hw with rfl | hw
          · exact ⟨e, List.mem_cons_self, rfl, name, hp, hb⟩
          · obtain ⟨e', he', hrest⟩ := ih hl hw
            exact ⟨e', List.mem_cons_of_mem _ he', hrest⟩

/-- The output ends below any bound that every emitted address is below (R71). -/
theorem extent_le {emitted : List Emitted} {bound : Nat} (h : ∀ e ∈ emitted, e.addr < bound) :
    extent emitted ≤ bound := by
  have key : ∀ (l : List Emitted) (n : Nat), n ≤ bound → (∀ e ∈ l, e.addr < bound) →
      l.foldl (fun n e => max n (e.addr + 1)) n ≤ bound := by
    intro l
    induction l with
    | nil => intro n hn _; exact hn
    | cons e rest ih =>
      intro n hn he
      exact ih _ (max_le hn (he e List.mem_cons_self)) fun e' h' => he e' (List.mem_cons_of_mem _ h')
  exact key emitted 0 (Nat.zero_le _) h

end Sys2Proof.Asm
end

