-- ==== Sys2Proof/Laws/Params.lean ====
section
/-! SUPPORT. The configuration values of R4 as rewriting rules. Each proof is `(rfl)` in parentheses, so that simp rewrites
by congruence, under `decide` and `if` too, and does not leave an instance of the unrewritten condition behind. -/

namespace Sys2Proof.Machine

@[simp] theorem params_memSize : params.memSize = 256 := (rfl)
@[simp] theorem params_progMax : params.progMax = 192 := (rfl)
@[simp] theorem params_displayBase : params.displayBase = 0xC0 := (rfl)
@[simp] theorem params_displayEnd : params.displayEnd = 0xFF := (rfl)
@[simp] theorem params_displayFill : params.displayFill = 0x20 := (rfl)
@[simp] theorem params_spMin : params.spMin = 0x80 := (rfl)
@[simp] theorem params_spMax : params.spMax = 0xBF := (rfl)
@[simp] theorem params_spReset : params.spReset = 0xBF := (rfl)
@[simp] theorem params_ipReset : params.ipReset = 0 := (rfl)
@[simp] theorem params_portKeyboard : params.portKeyboard = 0x01 := (rfl)
@[simp] theorem params_shiftCount (n : Nat) : params.shiftCount n = n := (rfl)
@[simp] theorem params_condmap (c : Cond) (fl : Flags) : params.condmap c fl = condmapDefault c fl := (rfl)

/-- There are 85 opcodes (R4 `NOPCODES`, R58, C3). -/
theorem params_opmap_length : params.opmap.length = 85 := rfl

/-- Each variant has one opcode number (R58 "any bijection"). -/
theorem params_opmap_nodup : params.opmap.Nodup := by decide

end Sys2Proof.Machine
end

