-- ==== Sys2Proof/Laws/State.lean ====
section
/-! SUPPORT. What each update of the state leaves in each field, and what each leaves of the general registers. -/

namespace Sys2Proof.Machine

/-! ### `setReg` -/

@[simp] theorem State.sp_setReg (s : State) (r : Reg) (v : Byte) : (s.setReg r v).sp = s.sp := by cases r <;> rfl

@[simp] theorem State.pc_setReg (s : State) (r : Reg) (v : Byte) : (s.setReg r v).pc = s.pc := by cases r <;> rfl

@[simp] theorem State.flags_setReg (s : State) (r : Reg) (v : Byte) : (s.setReg r v).flags = s.flags := by cases r <;> rfl

@[simp] theorem State.f_setReg (s : State) (r : Reg) (v : Byte) : (s.setReg r v).f = s.f := by cases r <;> rfl

@[simp] theorem State.rs_setReg (s : State) (r : Reg) (v : Byte) : (s.setReg r v).rs = s.rs := by cases r <;> rfl

@[simp] theorem State.mem_setReg (s : State) (r : Reg) (v : Byte) : (s.setReg r v).mem = s.mem := by cases r <;> rfl

@[simp] theorem State.events_setReg (s : State) (r : Reg) (v : Byte) : (s.setReg r v).events = s.events := by cases r <;> rfl

@[simp] theorem State.inbox_setReg (s : State) (r : Reg) (v : Byte) : (s.setReg r v).inbox = s.inbox := by cases r <;> rfl

@[simp] theorem State.draws_setReg (s : State) (r : Reg) (v : Byte) : (s.setReg r v).draws = s.draws := by cases r <;> rfl

/-- What a register reads as after a write: the written one its new value, every other one its old value (R6, R10). -/
@[simp] theorem State.reg_setReg (s : State) (r q : Reg) (v : Byte) :
    (s.setReg r v).reg q = if q = r then v else s.reg q := by
  cases r <;> cases q <;> rfl

/-! ### `setSp` -/

@[simp] theorem State.sp_setSp (s : State) (v : Byte) : (s.setSp v).sp = v := rfl

@[simp] theorem State.pc_setSp (s : State) (v : Byte) : (s.setSp v).pc = s.pc := rfl

@[simp] theorem State.flags_setSp (s : State) (v : Byte) : (s.setSp v).flags = s.flags := rfl

@[simp] theorem State.f_setSp (s : State) (v : Byte) : (s.setSp v).f = s.f := rfl

@[simp] theorem State.rs_setSp (s : State) (v : Byte) : (s.setSp v).rs = s.rs := rfl

@[simp] theorem State.mem_setSp (s : State) (v : Byte) : (s.setSp v).mem = s.mem := rfl

@[simp] theorem State.events_setSp (s : State) (v : Byte) : (s.setSp v).events = s.events := rfl

@[simp] theorem State.inbox_setSp (s : State) (v : Byte) : (s.setSp v).inbox = s.inbox := rfl

@[simp] theorem State.draws_setSp (s : State) (v : Byte) : (s.setSp v).draws = s.draws := rfl

@[simp] theorem State.reg_setSp (s : State) (v : Byte) (q : Reg) : (s.setSp v).reg q = s.reg q := by cases q <;> rfl

/-! ### `setPc` -/

@[simp] theorem State.sp_setPc (s : State) (t : Int) : (s.setPc t).sp = s.sp := rfl

@[simp] theorem State.pc_setPc (s : State) (t : Int) : (s.setPc t).pc = t := rfl

@[simp] theorem State.flags_setPc (s : State) (t : Int) : (s.setPc t).flags = s.flags := rfl

@[simp] theorem State.f_setPc (s : State) (t : Int) : (s.setPc t).f = s.f := rfl

@[simp] theorem State.rs_setPc (s : State) (t : Int) : (s.setPc t).rs = s.rs := rfl

@[simp] theorem State.mem_setPc (s : State) (t : Int) : (s.setPc t).mem = s.mem := rfl

@[simp] theorem State.events_setPc (s : State) (t : Int) : (s.setPc t).events = s.events := rfl

@[simp] theorem State.inbox_setPc (s : State) (t : Int) : (s.setPc t).inbox = s.inbox := rfl

@[simp] theorem State.draws_setPc (s : State) (t : Int) : (s.setPc t).draws = s.draws := rfl

@[simp] theorem State.reg_setPc (s : State) (t : Int) (q : Reg) : (s.setPc t).reg q = s.reg q := by cases q <;> rfl

/-! ### `advance` -/

@[simp] theorem State.sp_advance (s : State) : (s.advance).sp = s.sp := rfl

@[simp] theorem State.pc_advance (s : State) : (s.advance).pc = s.pc + 1 := rfl

@[simp] theorem State.flags_advance (s : State) : (s.advance).flags = s.flags := rfl

@[simp] theorem State.f_advance (s : State) : (s.advance).f = s.f := rfl

@[simp] theorem State.rs_advance (s : State) : (s.advance).rs = s.rs := rfl

@[simp] theorem State.mem_advance (s : State) : (s.advance).mem = s.mem := rfl

@[simp] theorem State.events_advance (s : State) : (s.advance).events = s.events := rfl

@[simp] theorem State.inbox_advance (s : State) : (s.advance).inbox = s.inbox := rfl

@[simp] theorem State.draws_advance (s : State) : (s.advance).draws = s.draws := rfl

@[simp] theorem State.reg_advance (s : State) (q : Reg) : (s.advance).reg q = s.reg q := by cases q <;> rfl

/-! ### `hold` -/

@[simp] theorem State.sp_hold (s : State) : (s.hold).sp = s.sp := rfl

@[simp] theorem State.pc_hold (s : State) : (s.hold).pc = s.pc - 1 := rfl

@[simp] theorem State.flags_hold (s : State) : (s.hold).flags = s.flags := rfl

@[simp] theorem State.f_hold (s : State) : (s.hold).f = s.f := rfl

@[simp] theorem State.rs_hold (s : State) : (s.hold).rs = s.rs := rfl

@[simp] theorem State.mem_hold (s : State) : (s.hold).mem = s.mem := rfl

@[simp] theorem State.events_hold (s : State) : (s.hold).events = s.events := rfl

@[simp] theorem State.inbox_hold (s : State) : (s.hold).inbox = s.inbox := rfl

@[simp] theorem State.draws_hold (s : State) : (s.hold).draws = s.draws := rfl

@[simp] theorem State.reg_hold (s : State) (q : Reg) : (s.hold).reg q = s.reg q := by cases q <;> rfl

/-! ### `setFlags` -/

@[simp] theorem State.sp_setFlags (s : State) (fl : Flags) : (s.setFlags fl).sp = s.sp := rfl

@[simp] theorem State.pc_setFlags (s : State) (fl : Flags) : (s.setFlags fl).pc = s.pc := rfl

@[simp] theorem State.flags_setFlags (s : State) (fl : Flags) : (s.setFlags fl).flags = fl := rfl

@[simp] theorem State.f_setFlags (s : State) (fl : Flags) : (s.setFlags fl).f = s.f := rfl

@[simp] theorem State.rs_setFlags (s : State) (fl : Flags) : (s.setFlags fl).rs = s.rs := rfl

@[simp] theorem State.mem_setFlags (s : State) (fl : Flags) : (s.setFlags fl).mem = s.mem := rfl

@[simp] theorem State.events_setFlags (s : State) (fl : Flags) : (s.setFlags fl).events = s.events := rfl

@[simp] theorem State.inbox_setFlags (s : State) (fl : Flags) : (s.setFlags fl).inbox = s.inbox := rfl

@[simp] theorem State.draws_setFlags (s : State) (fl : Flags) : (s.setFlags fl).draws = s.draws := rfl

@[simp] theorem State.reg_setFlags (s : State) (fl : Flags) (q : Reg) : (s.setFlags fl).reg q = s.reg q := by cases q <;> rfl

/-! ### `halt` -/

@[simp] theorem State.sp_halt (s : State) : (s.halt).sp = s.sp := rfl

@[simp] theorem State.pc_halt (s : State) : (s.halt).pc = s.pc := rfl

@[simp] theorem State.flags_halt (s : State) : (s.halt).flags = s.flags := rfl

@[simp] theorem State.f_halt (s : State) : (s.halt).f = s.f := rfl

@[simp] theorem State.rs_halt (s : State) : (s.halt).rs = .halted := rfl

@[simp] theorem State.mem_halt (s : State) : (s.halt).mem = s.mem := rfl

@[simp] theorem State.events_halt (s : State) : (s.halt).events = s.events := rfl

@[simp] theorem State.inbox_halt (s : State) : (s.halt).inbox = s.inbox := rfl

@[simp] theorem State.draws_halt (s : State) : (s.halt).draws = s.draws := rfl

@[simp] theorem State.reg_halt (s : State) (q : Reg) : (s.halt).reg q = s.reg q := by cases q <;> rfl

/-! ### `emit` -/

@[simp] theorem State.sp_emit (s : State) (e : Event) : (s.emit e).sp = s.sp := rfl

@[simp] theorem State.pc_emit (s : State) (e : Event) : (s.emit e).pc = s.pc := rfl

@[simp] theorem State.flags_emit (s : State) (e : Event) : (s.emit e).flags = s.flags := rfl

@[simp] theorem State.f_emit (s : State) (e : Event) : (s.emit e).f = s.f := rfl

@[simp] theorem State.rs_emit (s : State) (e : Event) : (s.emit e).rs = s.rs := rfl

@[simp] theorem State.mem_emit (s : State) (e : Event) : (s.emit e).mem = s.mem := rfl

@[simp] theorem State.events_emit (s : State) (e : Event) : (s.emit e).events = e :: s.events := rfl

@[simp] theorem State.inbox_emit (s : State) (e : Event) : (s.emit e).inbox = s.inbox := rfl

@[simp] theorem State.draws_emit (s : State) (e : Event) : (s.emit e).draws = s.draws := rfl

@[simp] theorem State.reg_emit (s : State) (e : Event) (q : Reg) : (s.emit e).reg q = s.reg q := by cases q <;> rfl

/-! ### `portOut` -/

@[simp] theorem State.sp_portOut (s : State) (p v : Byte) : (s.portOut p v).sp = s.sp := rfl

@[simp] theorem State.pc_portOut (s : State) (p v : Byte) : (s.portOut p v).pc = s.pc := rfl

@[simp] theorem State.flags_portOut (s : State) (p v : Byte) : (s.portOut p v).flags = s.flags := rfl

@[simp] theorem State.f_portOut (s : State) (p v : Byte) : (s.portOut p v).f = s.f := rfl

@[simp] theorem State.rs_portOut (s : State) (p v : Byte) : (s.portOut p v).rs = s.rs := rfl

@[simp] theorem State.mem_portOut (s : State) (p v : Byte) : (s.portOut p v).mem = s.mem := rfl

@[simp] theorem State.events_portOut (s : State) (p v : Byte) : (s.portOut p v).events = .portOut p v :: s.events := rfl

@[simp] theorem State.inbox_portOut (s : State) (p v : Byte) : (s.portOut p v).inbox = s.inbox := rfl

@[simp] theorem State.draws_portOut (s : State) (p v : Byte) : (s.portOut p v).draws = s.draws := rfl

@[simp] theorem State.reg_portOut (s : State) (p v : Byte) (q : Reg) : (s.portOut p v).reg q = s.reg q := by cases q <;> rfl

/-! ### `enterFault` -/

@[simp] theorem State.sp_enterFault (s : State) (r : FaultReport) : (s.enterFault r).sp = s.sp := rfl

@[simp] theorem State.pc_enterFault (s : State) (r : FaultReport) : (s.enterFault r).pc = s.pc := rfl

@[simp] theorem State.flags_enterFault (s : State) (r : FaultReport) : (s.enterFault r).flags = s.flags := rfl

@[simp] theorem State.f_enterFault (s : State) (r : FaultReport) : (s.enterFault r).f = true := rfl

@[simp] theorem State.rs_enterFault (s : State) (r : FaultReport) : (s.enterFault r).rs = .faulted r := rfl

@[simp] theorem State.mem_enterFault (s : State) (r : FaultReport) : (s.enterFault r).mem = s.mem := rfl

@[simp] theorem State.events_enterFault (s : State) (r : FaultReport) : (s.enterFault r).events = .faultRaised r :: s.events := rfl

@[simp] theorem State.inbox_enterFault (s : State) (r : FaultReport) : (s.enterFault r).inbox = s.inbox := rfl

@[simp] theorem State.draws_enterFault (s : State) (r : FaultReport) : (s.enterFault r).draws = s.draws := rfl

@[simp] theorem State.reg_enterFault (s : State) (r : FaultReport) (q : Reg) : (s.enterFault r).reg q = s.reg q := by cases q <;> rfl

/-! ### `loadFlags` -/

@[simp] theorem State.sp_loadFlags (s : State) (v : Byte) : (s.loadFlags v).sp = s.sp := rfl

@[simp] theorem State.pc_loadFlags (s : State) (v : Byte) : (s.loadFlags v).pc = s.pc := rfl

@[simp] theorem State.flags_loadFlags (s : State) (v : Byte) : (s.loadFlags v).flags = flagsOfByte v := rfl

@[simp] theorem State.f_loadFlags (s : State) (v : Byte) : (s.loadFlags v).f = s.f := rfl

@[simp] theorem State.rs_loadFlags (s : State) (v : Byte) : (s.loadFlags v).rs = s.rs := rfl

@[simp] theorem State.mem_loadFlags (s : State) (v : Byte) : (s.loadFlags v).mem = s.mem := rfl

@[simp] theorem State.events_loadFlags (s : State) (v : Byte) : (s.loadFlags v).events = s.events := rfl

@[simp] theorem State.inbox_loadFlags (s : State) (v : Byte) : (s.loadFlags v).inbox = s.inbox := rfl

@[simp] theorem State.draws_loadFlags (s : State) (v : Byte) : (s.loadFlags v).draws = s.draws := rfl

@[simp] theorem State.reg_loadFlags (s : State) (v : Byte) (q : Reg) : (s.loadFlags v).reg q = s.reg q := by cases q <;> rfl

/-! ### `store` -/

/-- The events after a store: one `Display` more when the address is in the display region (R32). -/
theorem State.events_store (s : State) (addr : Int) (v : Byte) :
    (s.store addr v).events =
      if 0xC0 ≤ addr.toNat ∧ addr.toNat ≤ 0xFF then .display addr.toNat v :: s.events else s.events := by
  exact apply_ite State.events _ _ _

@[simp] theorem State.mem_store (s : State) (addr : Int) (v : Byte) :
    (s.store addr v).mem = s.mem.write addr.toNat v := by
  unfold State.store; split <;> rfl

@[simp] theorem State.sp_store (s : State) (addr : Int) (v : Byte) : (s.store addr v).sp = s.sp := by
  unfold State.store; split <;> rfl

@[simp] theorem State.pc_store (s : State) (addr : Int) (v : Byte) : (s.store addr v).pc = s.pc := by
  unfold State.store; split <;> rfl

@[simp] theorem State.flags_store (s : State) (addr : Int) (v : Byte) : (s.store addr v).flags = s.flags := by
  unfold State.store; split <;> rfl

@[simp] theorem State.f_store (s : State) (addr : Int) (v : Byte) : (s.store addr v).f = s.f := by
  unfold State.store; split <;> rfl

@[simp] theorem State.rs_store (s : State) (addr : Int) (v : Byte) : (s.store addr v).rs = s.rs := by
  unfold State.store; split <;> rfl

@[simp] theorem State.inbox_store (s : State) (addr : Int) (v : Byte) : (s.store addr v).inbox = s.inbox := by
  unfold State.store; split <;> rfl

@[simp] theorem State.draws_store (s : State) (addr : Int) (v : Byte) : (s.store addr v).draws = s.draws := by
  unfold State.store; split <;> rfl

@[simp] theorem State.reg_store (s : State) (addr : Int) (v : Byte) (q : Reg) :
    (s.store addr v).reg q = s.reg q := by
  unfold State.store; split <;> cases q <;> rfl

/-- POPF's write is the write of the four flags: bits 0, 5, 6 and 7 of the popped byte do nothing (R208, D8). -/
theorem State.loadFlags_eq (s : State) (v : Byte) : s.loadFlags v = s.setFlags (flagsOfByte v) := rfl

/-- `pc <- next` is a write of pc. -/
theorem State.advance_eq (s : State) : s.advance = s.setPc (s.pc + 1) := rfl

/-! ### Reads -/

/-- A load reads the memory field. -/
theorem State.load_def (s : State) (addr : Int) : s.load addr = s.mem.read addr.toNat := rfl

/-- Equal memories load equal bytes. -/
theorem State.load_congr {s t : State} (h : s.mem = t.mem) (addr : Int) : s.load addr = t.load addr := by
  simp [State.load, h]

end Sys2Proof.Machine
end

