-- ==== Sys2Proof/Laws/Memory.lean ====
section
/-! SUPPORT. Reading after writing, and the canonical form kept by every memory operation (R31, R32, R39). -/

namespace Sys2Proof.Machine

/-- The addresses in memory are 0 to 255 (R31). -/
theorem inMemory_iff {addr : Int} : inMemory addr = true ↔ 0 ≤ addr ∧ addr < 256 := by
  unfold inMemory
  rw [Bool.and_eq_true, decide_eq_true_eq, decide_eq_true_eq]
  rfl

/-- A byte taken as an address is in memory (R33, R54). -/
@[simp] theorem inMemory_byte (b : Byte) : inMemory (b.toNat : Int) = true :=
  inMemory_iff.2 ⟨by omega, by have := b.isLt; omega⟩

/-! ### `drop` and `insert` -/

theorem Memory.read_drop (m : Memory) (a b : Nat) :
    (m.drop a).read b = if b = a then resetByte b else m.read b := by
  induction m with
  | nil => simp [Memory.drop, Memory.read]
  | cons cell rest ih =>
    obtain ⟨c, v⟩ := cell
    simp only [Memory.drop] at ih ⊢
    by_cases hc : c = a
    · subst hc
      by_cases hb : b = c <;> simp_all [Memory.read]
    · by_cases hb : b = a <;> simp_all [Memory.read]
      intro h; exact absurd h.symm hc

theorem Memory.read_insert (m : Memory) (a b : Nat) (v : Byte) (h : ∀ cell ∈ m, cell.1 ≠ a) :
    (m.insert a v).read b = if b = a then v else m.read b := by
  induction m with
  | nil => by_cases hb : b = a <;> simp [Memory.insert, Memory.read, hb]
  | cons cell rest ih =>
    obtain ⟨c, w⟩ := cell
    have hca : c ≠ a := h (c, w) (by simp)
    have ih' := ih fun cell hm => h cell (by simp [hm])
    by_cases hlt : a < c
    · by_cases hb : b = a <;> simp [Memory.insert, Memory.read, hlt, hb]
    · by_cases hb : b = a
      · subst hb
        simp only [Memory.insert, hlt, if_false, Memory.read, if_neg hca.symm, ih', if_true]
      · simp [Memory.insert, Memory.read, hlt, ih', hb]

theorem Memory.mem_drop {m : Memory} {a : Nat} {cell : Host.Cell} :
    cell ∈ m.drop a ↔ cell ∈ m ∧ cell.1 ≠ a := by simp [Memory.drop]

theorem Memory.mem_insert {m : Memory} {a : Nat} {v : Byte} {cell : Host.Cell} :
    cell ∈ m.insert a v ↔ cell = (a, v) ∨ cell ∈ m := by
  induction m with
  | nil => simp [Memory.insert]
  | cons head rest ih =>
    obtain ⟨c, w⟩ := head
    by_cases h : a < c
    · simp [Memory.insert, h]
    · simp [Memory.insert, h, ih]; tauto

/-! ### `write` -/

/-- Reading after a write: the written address reads as the written byte, every other one as before (R39). -/
theorem Memory.read_write (m : Memory) (a b : Nat) (v : Byte) :
    (m.write a v).read b = if b = a then v else m.read b := by
  unfold Memory.write
  split
  next h => rw [Memory.read_drop]; split <;> simp_all
  next h =>
    rw [Memory.read_insert _ _ _ _ fun cell hm => (Memory.mem_drop.1 hm).2, Memory.read_drop]
    split <;> simp_all

theorem Memory.wf_drop {m : Memory} (h : m.wf) (a : Nat) : (m.drop a).wf :=
  ⟨h.1.filter _, fun cell hm => h.2 cell (Memory.mem_drop.1 hm).1⟩

theorem Memory.pairwise_insert {m : Memory} {a : Nat} {v : Byte} (h : m.Pairwise fun x y => x.1 < y.1)
    (hne : ∀ cell ∈ m, cell.1 ≠ a) : (m.insert a v).Pairwise fun x y => x.1 < y.1 := by
  induction m with
  | nil => simp [Memory.insert]
  | cons head rest ih =>
    obtain ⟨c, w⟩ := head
    have hca : c ≠ a := hne (c, w) (by simp)
    rw [List.pairwise_cons] at h
    by_cases hlt : a < c
    · simp only [Memory.insert, hlt, if_true, List.pairwise_cons]
      refine ⟨fun cell hm => ?_, h⟩
      rcases List.mem_cons.1 hm with rfl | hm
      · exact hlt
      · exact lt_trans hlt (h.1 cell hm)
    · simp only [Memory.insert, hlt, if_false, List.pairwise_cons]
      refine ⟨fun cell hm => ?_, ih h.2 fun cell hm => hne cell (by simp [hm])⟩
      rcases Memory.mem_insert.1 hm with rfl | hm
      · exact lt_of_le_of_ne (not_lt.1 hlt) hca
      · exact h.1 cell hm

/-- A write inside the memory keeps the canonical form. -/
theorem Memory.wf_write {m : Memory} (h : m.wf) {a : Nat} (ha : a < params.memSize) (v : Byte) :
    (m.write a v).wf := by
  unfold Memory.write
  split
  · exact Memory.wf_drop h a
  next hv =>
    refine ⟨Memory.pairwise_insert (h.1.filter _) fun cell hm => (Memory.mem_drop.1 hm).2, fun cell hm => ?_⟩
    rcases Memory.mem_insert.1 hm with rfl | hm
    · exact ⟨ha, hv⟩
    · exact h.2 cell (Memory.mem_drop.1 hm).1

/-- Storing bytes one after the other keeps the canonical form. -/
theorem Memory.wf_writeBytes {m : Memory} (h : m.wf) (a : Nat) (bytes : List Byte) :
    (m.writeBytes a bytes).wf := by
  induction bytes generalizing m a with
  | nil => exact h
  | cons b rest ih =>
    unfold Memory.writeBytes
    split
    next ha => exact ih (Memory.wf_write h ha b) (a + 1)
    · exact h

/-- Clearing the program region keeps the canonical form. -/
theorem Memory.wf_clearProgram {m : Memory} (h : m.wf) : m.clearProgram.wf :=
  ⟨h.1.filter _, fun cell hm => h.2 cell (List.mem_filter.1 hm).1⟩

/-- The memory after reset has the canonical form. -/
theorem State.reset_mem_wf : State.reset.mem.wf := by decide

/-- A store that passed the bounds check keeps the canonical form. -/
theorem State.store_mem_wf {s : State} (h : s.mem.wf) {addr : Int} (ha : inMemory addr = true) (v : Byte) :
    (s.store addr v).mem.wf := by
  rw [State.mem_store]
  have h' := inMemory_iff.1 ha
  exact Memory.wf_write h (by rw [params_memSize]; omega) v

/-- What an address in memory loads as after a store (R31, R32). -/
theorem State.load_store (s : State) {addr other : Int} (v : Byte) (ha : inMemory addr = true)
    (ho : inMemory other = true) :
    (s.store addr v).load other = if other = addr then v else s.load other := by
  simp only [State.load, State.mem_store, Memory.read_write]
  have ha' := inMemory_iff.1 ha
  have ho' := inMemory_iff.1 ho
  have h : other.toNat = addr.toNat ↔ other = addr := by omega
  simp only [h]

/-! ### The host's operations on memory -/

/-- What the memory reads as after bytes were stored from an address, as far as they fit (R44). -/
theorem Memory.read_writeBytes (m : Memory) (a b : Nat) (bytes : List Byte) (hfit : a + bytes.length ≤ 256) :
    (m.writeBytes a bytes).read b =
      if h : a ≤ b ∧ b < a + bytes.length then bytes[b - a]'(by omega) else m.read b := by
  induction bytes generalizing m a with
  | nil => simp [Memory.writeBytes]
  | cons c rest ih =>
    simp only [List.length_cons] at hfit
    have ha : a < params.memSize := by simp; omega
    simp only [Memory.writeBytes, ha, if_true]
    rw [ih _ _ (by omega), Memory.read_write]
    by_cases hb : b = a
    · subst hb; simp
    · by_cases h : a + 1 ≤ b ∧ b < a + 1 + rest.length
      · have h' : a ≤ b ∧ b < a + (c :: rest).length := by simp only [List.length_cons]; omega
        have hs : b - a = (b - (a + 1)) + 1 := by omega
        rw [dif_pos h, dif_pos h']
        simp [hs]
      · have h' : ¬(a ≤ b ∧ b < a + (c :: rest).length) := by simp only [List.length_cons]; omega
        rw [dif_neg h, dif_neg h', if_neg hb]

/-- The program region reads 0 after it is cleared, and the display region as before (R44). -/
theorem Memory.read_clearProgram (m : Memory) (a : Nat) :
    m.clearProgram.read a = if a < 0xC0 then 0x00 else m.read a := by
  induction m with
  | nil =>
    by_cases h : a < 0xC0
    · have h' : ¬(192 ≤ a ∧ a ≤ 255) := by omega
      simp [Memory.clearProgram, Memory.read, resetByte, h, h']
    · simp [Memory.clearProgram, Memory.read, h]
  | cons cell rest ih =>
    obtain ⟨c, v⟩ := cell
    simp only [Memory.clearProgram, params_displayBase] at ih ⊢
    by_cases hc : 0xC0 ≤ c
    · by_cases hac : a = c
      · subst hac; simp [Memory.read, hc]
      · simp [Memory.read, hc, hac, ih]
    · by_cases hac : a = c
      · subst hac
        have hlt : a < 0xC0 := by omega
        rw [List.filter_cons_of_neg (by rw [decide_eq_true_eq]; exact hc), ih, if_pos hlt, if_pos hlt]
      · rw [List.filter_cons_of_neg (by rw [decide_eq_true_eq]; exact hc), ih]
        simp [Memory.read, hac]

end Sys2Proof.Machine
end

