-- ==== Sys2Proof/Laws/Ops.lean ====
section
/-! SUPPORT. One lemma per shared operation that says once everything it can do, and the rewriting rules of the
operations on operands that are valid. -/

namespace Sys2Proof.Machine

/-! ### Registers and operands -/

/-- The index of a register's byte is that register (R10, R52). -/
@[simp] theorem ofIndex_toByte (r : Reg) : Reg.ofIndex? r.toByte.toNat = some r := by cases r <;> rfl

/-- A register byte is 0 to 3 (R52). -/
theorem toByte_lt (r : Reg) : r.toByte.toNat < 4 := by cases r <;> decide

/-- An index above 3 names no register (R52). -/
theorem ofIndex_none {n : Nat} : Reg.ofIndex? n = none ↔ 4 ≤ n := by
  match n with
  | 0 | 1 | 2 | 3 => simp [Reg.ofIndex?]
  | n + 4 => simp [Reg.ofIndex?]

/-- The byte of a register that an index names is that index. -/
theorem ofIndex_some {n : Nat} {r : Reg} (h : Reg.ofIndex? n = some r) : n = r.index := by
  match n with
  | 0 | 1 | 2 | 3 => simp [Reg.ofIndex?] at h; subst h; rfl
  | n + 4 => simp [Reg.ofIndex?] at h

/-- A register byte is the byte of the register it names. -/
theorem eq_toByte_of_ofIndex {b : RegByte} {r : Reg} (h : Reg.ofIndex? b.toNat = some r) : b = r.toByte := by
  apply BitVec.eq_of_toNat_eq
  rw [ofIndex_some h]
  cases r <;> rfl

@[simp] theorem withReg_toByte (r : Reg) (s : State) (k : Reg → Result) : withReg r.toByte s k = k r := by
  simp [withReg]

theorem withReg_of_ge {b : RegByte} (h : 4 ≤ b.toNat) (s : State) (k : Reg → Result) :
    withReg b s k = takeFault (.invalidRegister b) s := by
  simp [withReg, ofIndex_none.2 h]

/-- `Reg(b)` either hands on the register whose byte `b` is, or raises InvalidRegister(b) for `b` above 3 (R52). -/
theorem withReg_cases (b : RegByte) (s : State) (k : Reg → Result) :
    (∃ r : Reg, b = r.toByte ∧ withReg b s k = k r) ∨
      (4 ≤ b.toNat ∧ withReg b s k = .next (s.enterFault (.invalidRegister b))) := by
  unfold withReg
  cases h : Reg.ofIndex? b.toNat with
  | none => exact .inr ⟨ofIndex_none.1 h, rfl⟩
  | some r => exact .inl ⟨r, eq_toByte_of_ofIndex h, rfl⟩

/-- The bytes of different registers differ. -/
theorem toByte_inj {r q : Reg} (h : r.toByte = q.toByte) : r = q := by
  cases r <;> cases q <;> first | rfl | exact absurd h (by decide)

/-! ### RegisterIndirect fields (R53) -/

@[simp] theorem Indirect.ofByte_toByte (x : Indirect) : Indirect.ofByte x.toByte = x := by
  obtain ⟨off, reg⟩ := x
  have h : ∀ (off : BitVec 5) (reg : BitVec 3),
      Indirect.ofByte (Indirect.toByte { off := off, reg := reg }) = { off := off, reg := reg } := by decide
  exact h off reg

@[simp] theorem Indirect.toByte_ofByte (v : Byte) : (Indirect.ofByte v).toByte = v := by
  have h : ∀ v : Byte, (Indirect.ofByte v).toByte = v := by decide
  exact h v

/-- The range of a register-indirect address (R53). -/
theorem eaInd_range (s : State) (x : Indirect) : -16 ≤ s.eaInd x ∧ s.eaInd x ≤ 270 := by
  have h1 := (s.base x).isLt
  have h2 := BitVec.le_toInt x.off
  have h3 := BitVec.toInt_lt (x := x.off)
  simp only [State.eaInd]
  omega

/-! ### Memory accesses -/

theorem withRead_of_in {addr : Int} (h : inMemory addr = true) (s : State) (k : Byte → Result) :
    withRead addr s k = k (s.load addr) := by simp [withRead, h]

@[simp] theorem withRead_byte (a : Byte) (s : State) (k : Byte → Result) :
    withRead (a.toNat : Int) s k = k (s.load (a.toNat : Int)) := withRead_of_in (inMemory_byte a) s k

/-- `MemRead` either hands on the byte at an address in memory or raises AddressOutOfBounds (R31). -/
theorem withRead_cases (addr : Int) (s : State) (k : Byte → Result) :
    (inMemory addr = true ∧ withRead addr s k = k (s.load addr)) ∨
      (inMemory addr = false ∧ withRead addr s k = .next (s.enterFault (.addressOutOfBounds addr))) := by
  unfold withRead
  cases h : inMemory addr
  · exact .inr ⟨rfl, rfl⟩
  · exact .inl ⟨rfl, rfl⟩

theorem withWrite_of_in {addr : Int} (h : inMemory addr = true) (v : Byte) (s : State) (k : State → Result) :
    withWrite addr v s k = k (s.store addr v) := by simp [withWrite, h]

@[simp] theorem withWrite_byte (a v : Byte) (s : State) (k : State → Result) :
    withWrite (a.toNat : Int) v s k = k (s.store (a.toNat : Int) v) := withWrite_of_in (inMemory_byte a) v s k

/-- `MemWrite` either stores at an address in memory or raises AddressOutOfBounds with nothing written (R32). -/
theorem withWrite_cases (addr : Int) (v : Byte) (s : State) (k : State → Result) :
    (inMemory addr = true ∧ withWrite addr v s k = k (s.store addr v)) ∨
      (inMemory addr = false ∧ withWrite addr v s k = .next (s.enterFault (.addressOutOfBounds addr))) := by
  unfold withWrite
  cases h : inMemory addr
  · exact .inr ⟨rfl, rfl⟩
  · exact .inl ⟨rfl, rfl⟩

/-! ### Stack -/

/-- The state a push leaves before its check: the byte stored at SP, SP one less (R200). -/
def pushed (v : Byte) (s : State) : State := (s.store s.sp.toNat v).setSp (s.sp - 1)

/-- `Push(v)` stores and decrements, and then either goes on or raises StackOverflow (R200). -/
theorem withPush_cases (v : Byte) (s : State) (k : State → Result) :
    (0x80 ≤ (s.sp - 1).toNat ∧ withPush v s k = k (pushed v s)) ∨
      ((s.sp - 1).toNat < 0x80 ∧
        withPush v s k = .next ((pushed v s).enterFault (.stackOverflow (s.sp - 1)))) := by
  simp only [withPush, withWrite_byte, State.sp_store, State.sp_setSp, params_spMin]
  by_cases h : (s.sp - 1).toNat < 0x80
  · exact .inr ⟨h, by rw [if_pos h]; rfl⟩
  · exact .inl ⟨by omega, by rw [if_neg h]; rfl⟩

/-- `Pop()` increments and reads, and then either hands the byte on or raises StackUnderflow (R201). -/
theorem withPop_cases (s : State) (k : Byte → State → Result) :
    ((s.sp + 1).toNat ≤ 0xBF ∧
        withPop s k = k (s.load ((s.sp + 1).toNat : Int)) (s.setSp (s.sp + 1))) ∨
      (0xBF < (s.sp + 1).toNat ∧
        withPop s k = .next ((s.setSp (s.sp + 1)).enterFault (.stackUnderflow (s.sp + 1)))) := by
  simp only [withPop, State.sp_setSp, withRead_byte, params_spMax]
  by_cases h : 0xBF < (s.sp + 1).toNat
  · exact .inr ⟨h, by rw [if_pos h]; rfl⟩
  · exact .inl ⟨by omega, by rw [if_neg h]; rfl⟩

/-! ### ALU, shifts, division, jumps -/

/-- A division goes on with a divisor that is not 0 and raises DivisionByZero with 0 (R116). -/
theorem divideInto_cases (d : Reg) (a b : Byte) (s : State) :
    (b ≠ 0 ∧ divideInto d a b s = writeResult d (aluDiv a b) s) ∨
      (b = 0 ∧ divideInto d a b s = .next (s.enterFault .divisionByZero)) := by
  unfold divideInto
  by_cases h : b = 0
  · exact .inr ⟨h, by rw [if_pos h]; rfl⟩
  · exact .inl ⟨h, by rw [if_neg h]⟩

/-- A shift by 0 only moves pc; any other shift writes a result and the flags (R141). -/
theorem shiftInto_cases (shift : Byte → Byte → AluResult) (d : Reg) (a b : Byte) (s : State) :
    (b = 0 ∧ shiftInto shift d a b s = .next s.advance) ∨
      (b ≠ 0 ∧ shiftInto shift d a b s = writeResult d (shift a b) s) := by
  unfold shiftInto
  by_cases h : b = 0
  · exact .inl ⟨h, by rw [if_pos h]⟩
  · exact .inr ⟨h, by rw [if_neg h]⟩

/-- A jump writes pc and nothing else (R170). -/
theorem jumpIf_eq (taken : Bool) (target : Int) (s : State) :
    jumpIf taken target s = .next (s.setPc (if taken then target else s.pc + 1)) := by
  cases taken <;> rfl

/-- A byte's low 8 bits read as a natural number (R5). -/
theorem toNat_low (t : Int) : ((low t).toNat : Int) = t % 256 := by
  simp [low, BitVec.toNat_ofInt]
  omega

/-- The sign bit of a byte (R5). -/
theorem bit7_iff (v : Byte) : bit7 v = true ↔ 128 ≤ v.toNat := by
  simp [bit7, BitVec.msb_eq_decide]

/-- The masked result of an exact one (R100). -/
@[simp] theorem value_aluResult (t : Int) (c o : Bool) : (aluResult t c o).value = low t := rfl
@[simp] theorem c_aluResult (t : Int) (c o : Bool) : (aluResult t c o).flags.c = c := rfl
@[simp] theorem o_aluResult (t : Int) (c o : Bool) : (aluResult t c o).flags.o = o := rfl
@[simp] theorem z_aluResult (t : Int) (c o : Bool) : (aluResult t c o).flags.z = decide (low t = 0) := rfl
@[simp] theorem s_aluResult (t : Int) (c o : Bool) : (aluResult t c o).flags.s = bit7 (low t) := rfl

/-! ### Ports -/

/-- `PortIn(p)` in its three cases: a supplied byte, the keyboard's hold, a byte nothing constrains (R220). -/
theorem portIn_cases (s : State) (p : Byte) :
    (∃ v rest, takeAnswer p s.inbox = some (v, rest) ∧
        s.portIn p = some (v, { s with inbox := rest }.emit (.portIn p v))) ∨
      (takeAnswer p s.inbox = none ∧ p = 0x01 ∧ s.portIn p = none) ∨
      (takeAnswer p s.inbox = none ∧ p ≠ 0x01 ∧
        s.portIn p = some (Config.portAnswer p s.draws,
          { s with draws := s.draws + 1 }.emit (.portIn p (Config.portAnswer p s.draws)))) := by
  unfold State.portIn
  cases h : takeAnswer p s.inbox with
  | some found => exact .inl ⟨found.1, found.2, rfl, rfl⟩
  | none =>
    by_cases hp : p = 0x01
    · exact .inr (.inl ⟨rfl, hp, by rw [params_portKeyboard, if_pos hp]⟩)
    · exact .inr (.inr ⟨rfl, hp, by rw [params_portKeyboard, if_neg hp]⟩)

/-- The oldest answer for a port is found behind answers for other ports, which stay (R220; log 15). -/
theorem takeAnswer_append {p v : Byte} {before after : List PortAnswer} (h : ∀ a ∈ before, a.port ≠ p) :
    takeAnswer p (before ++ { port := p, value := v } :: after) = some (v, before ++ after) := by
  induction before with
  | nil => simp [takeAnswer]
  | cons a rest ih =>
    have ha := h a (by simp)
    simp [takeAnswer, ha, ih fun b hb => h b (by simp [hb])]

/-- No answer is found when every waiting answer is for another port. -/
theorem takeAnswer_none {p : Byte} {inbox : List PortAnswer} (h : ∀ a ∈ inbox, a.port ≠ p) :
    takeAnswer p inbox = none := by
  induction inbox with
  | nil => rfl
  | cons a rest ih =>
    have ha := h a (by simp)
    simp [takeAnswer, ha, ih fun b hb => h b (by simp [hb])]

/-! ### Fetch (R62) -/

/-- `Fetch1()` either reads the byte after pc or raises AddressOutOfBounds, pc advanced in both cases (R6, R62). -/
theorem fetchByte_cases (s : State) (k : Byte → State → Result) :
    (inMemory (s.pc + 1) = true ∧ fetchByte s k = k (s.load (s.pc + 1)) (s.setPc (s.pc + 1))) ∨
      (inMemory (s.pc + 1) = false ∧
        fetchByte s k = .next ((s.setPc (s.pc + 1)).enterFault (.addressOutOfBounds (s.pc + 1)))) := by
  simp only [fetchByte, State.pc_setPc]
  rcases withRead_cases (s.pc + 1) (s.setPc (s.pc + 1)) fun b => k b (s.setPc (s.pc + 1)) with ⟨h, e⟩ | ⟨h, e⟩
  · exact .inl ⟨h, e⟩
  · exact .inr ⟨h, e⟩

/-- An instruction has no, one or two operand bytes (R50). -/
theorem nops_cases (f : Form) : f.nops = 0 ∨ f.nops = 1 ∨ f.nops = 2 := by cases f <;> decide

end Sys2Proof.Machine
end

