-- ==== Sys2Proof/Laws/PerInstr.lean ====
section
/-! SUPPORT. Statements made of every instruction as syntax, one lemma per constructor (R50, R51, R59, R68). -/

namespace Sys2Proof.Laws.EncodingShape

open Sys2Proof.Machine

/-- The encoding of an instruction is its opcode byte and as many operand bytes as the opcode byte alone says, its
length in bytes (R50, R59), and the opcode byte selects the instruction's variant (R58). -/
def Statement (i : Instr) : Prop :=
  (encode i).length = i.length ∧ (encode i).head? = some i.form.opcode ∧ formOfOpcode i.form.opcode = some i.form

theorem hlt : Statement .hlt := ⟨rfl, rfl, rfl⟩
theorem movRR (d : RegByte) (r : RegByte) : Statement (.movRR d r) := ⟨rfl, rfl, rfl⟩
theorem movRA (d : RegByte) (a : Byte) : Statement (.movRA d a) := ⟨rfl, rfl, rfl⟩
theorem movRX (d : RegByte) (x : Indirect) : Statement (.movRX d x) := ⟨rfl, rfl, rfl⟩
theorem movAR (a : Byte) (r : RegByte) : Statement (.movAR a r) := ⟨rfl, rfl, rfl⟩
theorem movXR (x : Indirect) (r : RegByte) : Statement (.movXR x r) := ⟨rfl, rfl, rfl⟩
theorem movRI (d : RegByte) (k : Byte) : Statement (.movRI d k) := ⟨rfl, rfl, rfl⟩
theorem movAI (a : Byte) (k : Byte) : Statement (.movAI a k) := ⟨rfl, rfl, rfl⟩
theorem movXI (x : Indirect) (k : Byte) : Statement (.movXI x k) := ⟨rfl, rfl, rfl⟩
theorem movRS (d : RegByte) (o : Byte) : Statement (.movRS d o) := ⟨rfl, rfl, rfl⟩
theorem movSR (o : Byte) (r : RegByte) : Statement (.movSR o r) := ⟨rfl, rfl, rfl⟩
theorem addI (d : RegByte) (k : Byte) : Statement (.addI d k) := ⟨rfl, rfl, rfl⟩
theorem addR (d : RegByte) (r : RegByte) : Statement (.addR d r) := ⟨rfl, rfl, rfl⟩
theorem addA (d : RegByte) (a : Byte) : Statement (.addA d a) := ⟨rfl, rfl, rfl⟩
theorem addX (d : RegByte) (x : Indirect) : Statement (.addX d x) := ⟨rfl, rfl, rfl⟩
theorem subI (d : RegByte) (k : Byte) : Statement (.subI d k) := ⟨rfl, rfl, rfl⟩
theorem subR (d : RegByte) (r : RegByte) : Statement (.subR d r) := ⟨rfl, rfl, rfl⟩
theorem subA (d : RegByte) (a : Byte) : Statement (.subA d a) := ⟨rfl, rfl, rfl⟩
theorem subX (d : RegByte) (x : Indirect) : Statement (.subX d x) := ⟨rfl, rfl, rfl⟩
theorem inc (r : RegByte) : Statement (.inc r) := ⟨rfl, rfl, rfl⟩
theorem dec (r : RegByte) : Statement (.dec r) := ⟨rfl, rfl, rfl⟩
theorem neg (r : RegByte) : Statement (.neg r) := ⟨rfl, rfl, rfl⟩
theorem mulI (d : RegByte) (k : Byte) : Statement (.mulI d k) := ⟨rfl, rfl, rfl⟩
theorem mulR (d : RegByte) (r : RegByte) : Statement (.mulR d r) := ⟨rfl, rfl, rfl⟩
theorem mulA (d : RegByte) (a : Byte) : Statement (.mulA d a) := ⟨rfl, rfl, rfl⟩
theorem mulX (d : RegByte) (x : Indirect) : Statement (.mulX d x) := ⟨rfl, rfl, rfl⟩
theorem divI (d : RegByte) (k : Byte) : Statement (.divI d k) := ⟨rfl, rfl, rfl⟩
theorem divR (d : RegByte) (r : RegByte) : Statement (.divR d r) := ⟨rfl, rfl, rfl⟩
theorem divA (d : RegByte) (a : Byte) : Statement (.divA d a) := ⟨rfl, rfl, rfl⟩
theorem divX (d : RegByte) (x : Indirect) : Statement (.divX d x) := ⟨rfl, rfl, rfl⟩
theorem cmpI (d : RegByte) (k : Byte) : Statement (.cmpI d k) := ⟨rfl, rfl, rfl⟩
theorem cmpR (d : RegByte) (r : RegByte) : Statement (.cmpR d r) := ⟨rfl, rfl, rfl⟩
theorem cmpA (d : RegByte) (a : Byte) : Statement (.cmpA d a) := ⟨rfl, rfl, rfl⟩
theorem cmpX (d : RegByte) (x : Indirect) : Statement (.cmpX d x) := ⟨rfl, rfl, rfl⟩
theorem andI (d : RegByte) (k : Byte) : Statement (.andI d k) := ⟨rfl, rfl, rfl⟩
theorem andR (d : RegByte) (r : RegByte) : Statement (.andR d r) := ⟨rfl, rfl, rfl⟩
theorem andA (d : RegByte) (a : Byte) : Statement (.andA d a) := ⟨rfl, rfl, rfl⟩
theorem andX (d : RegByte) (x : Indirect) : Statement (.andX d x) := ⟨rfl, rfl, rfl⟩
theorem orI (d : RegByte) (k : Byte) : Statement (.orI d k) := ⟨rfl, rfl, rfl⟩
theorem orR (d : RegByte) (r : RegByte) : Statement (.orR d r) := ⟨rfl, rfl, rfl⟩
theorem orA (d : RegByte) (a : Byte) : Statement (.orA d a) := ⟨rfl, rfl, rfl⟩
theorem orX (d : RegByte) (x : Indirect) : Statement (.orX d x) := ⟨rfl, rfl, rfl⟩
theorem xorI (d : RegByte) (k : Byte) : Statement (.xorI d k) := ⟨rfl, rfl, rfl⟩
theorem xorR (d : RegByte) (r : RegByte) : Statement (.xorR d r) := ⟨rfl, rfl, rfl⟩
theorem xorA (d : RegByte) (a : Byte) : Statement (.xorA d a) := ⟨rfl, rfl, rfl⟩
theorem xorX (d : RegByte) (x : Indirect) : Statement (.xorX d x) := ⟨rfl, rfl, rfl⟩
theorem not (r : RegByte) : Statement (.not r) := ⟨rfl, rfl, rfl⟩
theorem shlI (d : RegByte) (k : Byte) : Statement (.shlI d k) := ⟨rfl, rfl, rfl⟩
theorem shlR (d : RegByte) (r : RegByte) : Statement (.shlR d r) := ⟨rfl, rfl, rfl⟩
theorem shlA (d : RegByte) (a : Byte) : Statement (.shlA d a) := ⟨rfl, rfl, rfl⟩
theorem shlX (d : RegByte) (x : Indirect) : Statement (.shlX d x) := ⟨rfl, rfl, rfl⟩
theorem shrI (d : RegByte) (k : Byte) : Statement (.shrI d k) := ⟨rfl, rfl, rfl⟩
theorem shrR (d : RegByte) (r : RegByte) : Statement (.shrR d r) := ⟨rfl, rfl, rfl⟩
theorem shrA (d : RegByte) (a : Byte) : Statement (.shrA d a) := ⟨rfl, rfl, rfl⟩
theorem shrX (d : RegByte) (x : Indirect) : Statement (.shrX d x) := ⟨rfl, rfl, rfl⟩
theorem jmpA (a : Byte) : Statement (.jmpA a) := ⟨rfl, rfl, rfl⟩
theorem jmpX (x : Indirect) : Statement (.jmpX x) := ⟨rfl, rfl, rfl⟩
theorem jcA (a : Byte) : Statement (.jcA a) := ⟨rfl, rfl, rfl⟩
theorem jcX (x : Indirect) : Statement (.jcX x) := ⟨rfl, rfl, rfl⟩
theorem jncA (a : Byte) : Statement (.jncA a) := ⟨rfl, rfl, rfl⟩
theorem jncX (x : Indirect) : Statement (.jncX x) := ⟨rfl, rfl, rfl⟩
theorem jzA (a : Byte) : Statement (.jzA a) := ⟨rfl, rfl, rfl⟩
theorem jzX (x : Indirect) : Statement (.jzX x) := ⟨rfl, rfl, rfl⟩
theorem jnzA (a : Byte) : Statement (.jnzA a) := ⟨rfl, rfl, rfl⟩
theorem jnzX (x : Indirect) : Statement (.jnzX x) := ⟨rfl, rfl, rfl⟩
theorem joA (a : Byte) : Statement (.joA a) := ⟨rfl, rfl, rfl⟩
theorem joX (x : Indirect) : Statement (.joX x) := ⟨rfl, rfl, rfl⟩
theorem jnoA (a : Byte) : Statement (.jnoA a) := ⟨rfl, rfl, rfl⟩
theorem jnoX (x : Indirect) : Statement (.jnoX x) := ⟨rfl, rfl, rfl⟩
theorem jsA (a : Byte) : Statement (.jsA a) := ⟨rfl, rfl, rfl⟩
theorem jsX (x : Indirect) : Statement (.jsX x) := ⟨rfl, rfl, rfl⟩
theorem jnsA (a : Byte) : Statement (.jnsA a) := ⟨rfl, rfl, rfl⟩
theorem jnsX (x : Indirect) : Statement (.jnsX x) := ⟨rfl, rfl, rfl⟩
theorem pushI (k : Byte) : Statement (.pushI k) := ⟨rfl, rfl, rfl⟩
theorem pushR (r : RegByte) : Statement (.pushR r) := ⟨rfl, rfl, rfl⟩
theorem pushA (a : Byte) : Statement (.pushA a) := ⟨rfl, rfl, rfl⟩
theorem pushX (x : Indirect) : Statement (.pushX x) := ⟨rfl, rfl, rfl⟩
theorem pop (r : RegByte) : Statement (.pop r) := ⟨rfl, rfl, rfl⟩
theorem pushf : Statement .pushf := ⟨rfl, rfl, rfl⟩
theorem popf : Statement .popf := ⟨rfl, rfl, rfl⟩
theorem callA (a : Byte) : Statement (.callA a) := ⟨rfl, rfl, rfl⟩
theorem callX (x : Indirect) : Statement (.callX x) := ⟨rfl, rfl, rfl⟩
theorem ret : Statement .ret := ⟨rfl, rfl, rfl⟩
theorem inp (p : Byte) : Statement (.inp p) := ⟨rfl, rfl, rfl⟩
theorem outp (p : Byte) : Statement (.outp p) := ⟨rfl, rfl, rfl⟩

end Sys2Proof.Laws.EncodingShape
end

