-- ==== Sys2Proof/Tests/Slice0.lean ====
section
/-! SUPPORT. The model's own tests: well-formedness, the decoding of a written-out word of every instruction, one step
of every instruction, and for every obligation with hypotheses a concrete state and operands that meet them. The words
are written from the encodings of R51 and R58, the expected results from spec/95_test_vectors.md or, where it has no row
for a form, by hand from the rule cited. -/

namespace Sys2Proof.Tests

open Sys2Proof.Machine Sys2Proof.Claims

/-! ### Helpers -/

/-- One step from a state with an instruction's bytes stored at its pc, and what is seen of the next state. -/
def look (bytes : List Byte) (s : State) (see : State → Bool) : Bool :=
  match step { s with mem := s.mem.writeBytes s.pc.toNat bytes } with
  | .next t => see t
  | _ => false

/-- The reset state with the four general registers set. -/
def regs (al bl cl dl : Byte) : State := { State.reset with al := al, bl := bl, cl := cl, dl := dl }

/-- A state with one byte of memory written. -/
def put (s : State) (a : Nat) (v : Byte) : State := { s with mem := s.mem.write a v }

/-- A state with the flags C, O, Z, S set. -/
def flagged (s : State) (c o z n : Bool) : State := { s with flags := { c := c, o := o, z := z, s := n } }

/-- A state with SP set. -/
def withSp (s : State) (v : Byte) : State := { s with sp := v }

/-- A state with pc set. -/
def atPc (s : State) (pc : Int) : State := { s with pc := pc }

/-- A register's value and the flags C, O, Z, S. -/
def sees (d : Reg) (v : Byte) (c o z n : Bool) (t : State) : Bool :=
  decide (t.reg d = v) && decide (t.flags = { c := c, o := o, z := z, s := n })

/-- The fault a state has taken, and its pc. -/
def faulted (r : FaultReport) (pc : Int) (t : State) : Bool := decide (t.rs = .faulted r) && decide (t.pc = pc) && t.f

/-- A written-out word decodes to an instruction with no byte left, and is that instruction's encoding. -/
def stands (word : List Byte) (i : Instr) : Bool :=
  (match decode word with
    | .ok (j, []) => decide (j = i)
    | _ => false) && decide (encode i = word)

/-! ### Well-formedness: every check refuses an ill-formed term (R52) -/

/-- Destination byte 4 is refused, 3 is not. -/
theorem test_wellFormed_destination : WellFormed (.addI 4 0) = false ∧ WellFormed (.addI 3 0) = true := by decide

/-- Source byte 255 is refused, 0 is not. -/
theorem test_wellFormed_source : WellFormed (.movRR 0 255) = false ∧ WellFormed (.movRR 0 0) = true := by decide

/-- The register byte of a store is refused; its address byte is never. -/
theorem test_wellFormed_store : WellFormed (.movAR 255 4) = false ∧ WellFormed (.movAR 255 3) = true := by decide

/-- The register byte of a one-operand form is refused. -/
theorem test_wellFormed_single : WellFormed (.pop 7) = false ∧ WellFormed (.pop 2) = true := by decide

/-- An immediate, an address and a register-indirect byte have no illegal value (R60). -/
theorem test_wellFormed_free : WellFormed (.movXI { off := 31, reg := 7 } 255) = true := by decide

/-! ### Decoding: one written-out word per instruction (R51, R58; 0x11 is `[BL+2]`, 0xF9 `[BL-1]`, 0x84 `[SP-16]`, R53) -/

theorem test_decode_mov :
    stands [0x01, 0x00, 0x01] (.movRR 0 1) ∧ stands [0x02, 0x02, 0x50] (.movRA 2 0x50) ∧
    stands [0x03, 0x00, 0xF9] (.movRX 0 { off := 31, reg := 1 }) ∧ stands [0x04, 0xC0, 0x03] (.movAR 0xC0 3) ∧
    stands [0x05, 0x11, 0x00] (.movXR { off := 2, reg := 1 } 0) ∧ stands [0x06, 0x03, 0xFF] (.movRI 3 0xFF) ∧
    stands [0x07, 0xC5, 0x21] (.movAI 0xC5 0x21) ∧ stands [0x08, 0x84, 0x01] (.movXI { off := 16, reg := 4 } 1) ∧
    stands [0x09, 0x02, 0x80] (.movRS 2 0x80) ∧ stands [0x0A, 0x7F, 0x02] (.movSR 0x7F 2) := by decide

theorem test_decode_add_sub :
    stands [0x0B, 0x00, 0x64] (.addI 0 0x64) ∧ stands [0x0C, 0x00, 0x01] (.addR 0 1) ∧
    stands [0x0D, 0x00, 0x50] (.addA 0 0x50) ∧ stands [0x0E, 0x00, 0x09] (.addX 0 { off := 1, reg := 1 }) ∧
    stands [0x0F, 0x01, 0x05] (.subI 1 5) ∧ stands [0x10, 0x01, 0x02] (.subR 1 2) ∧
    stands [0x11, 0x02, 0x7F] (.subA 2 0x7F) ∧ stands [0x12, 0x03, 0x02] (.subX 3 { off := 0, reg := 2 }) := by decide

theorem test_decode_inc_dec_neg :
    stands [0x13, 0x04] (.inc 4) ∧ stands [0x14, 0x01] (.dec 1) ∧ stands [0x15, 0x03] (.neg 3) := by decide

theorem test_decode_mul_div :
    stands [0x16, 0x00, 0x14] (.mulI 0 0x14) ∧ stands [0x17, 0x00, 0x01] (.mulR 0 1) ∧
    stands [0x18, 0x02, 0x50] (.mulA 2 0x50) ∧ stands [0x19, 0x02, 0x0C] (.mulX 2 { off := 1, reg := 4 }) ∧
    stands [0x1A, 0x05, 0x00] (.divI 5 0) ∧ stands [0x1B, 0x02, 0x01] (.divR 2 1) ∧
    stands [0x1C, 0x00, 0x70] (.divA 0 0x70) ∧ stands [0x1D, 0x00, 0x01] (.divX 0 { off := 0, reg := 1 }) := by decide

theorem test_decode_cmp :
    stands [0x1E, 0x00, 0x0A] (.cmpI 0 0x0A) ∧ stands [0x1F, 0x00, 0x01] (.cmpR 0 1) ∧
    stands [0x20, 0x20, 0x20] (.cmpA 0x20 0x20) ∧ stands [0x21, 0x00, 0x0C] (.cmpX 0 { off := 1, reg := 4 }) := by decide

theorem test_decode_logical :
    stands [0x22, 0x00, 0x3C] (.andI 0 0x3C) ∧ stands [0x23, 0x00, 0x01] (.andR 0 1) ∧
    stands [0x24, 0x01, 0x60] (.andA 1 0x60) ∧ stands [0x25, 0x02, 0x0B] (.andX 2 { off := 1, reg := 3 }) ∧
    stands [0x26, 0x00, 0x0F] (.orI 0 0x0F) ∧ stands [0x27, 0x01, 0x02] (.orR 1 2) ∧
    stands [0x28, 0x01, 0x60] (.orA 1 0x60) ∧ stands [0x29, 0x03, 0xFF] (.orX 3 { off := 31, reg := 7 }) ∧
    stands [0x2A, 0x00, 0x55] (.xorI 0 0x55) ∧ stands [0x2B, 0x01, 0x00] (.xorR 1 0) ∧
    stands [0x2C, 0x02, 0x61] (.xorA 2 0x61) ∧ stands [0x2D, 0x02, 0x03] (.xorX 2 { off := 0, reg := 3 }) ∧
    stands [0x2E, 0x02] (.not 2) := by decide

theorem test_decode_shift :
    stands [0x2F, 0x00, 0x07] (.shlI 0 7) ∧ stands [0x30, 0x00, 0x02] (.shlR 0 2) ∧
    stands [0x31, 0x01, 0x50] (.shlA 1 0x50) ∧ stands [0x32, 0x01, 0x02] (.shlX 1 { off := 0, reg := 2 }) ∧
    stands [0x33, 0x00, 0x08] (.shrI 0 8) ∧ stands [0x34, 0x03, 0x01] (.shrR 3 1) ∧
    stands [0x35, 0x01, 0x50] (.shrA 1 0x50) ∧ stands [0x36, 0x00, 0x01] (.shrX 0 { off := 0, reg := 1 }) := by decide

theorem test_decode_jump :
    stands [0x37, 0x10] (.jmpA 0x10) ∧ stands [0x38, 0x79] (.jmpX { off := 15, reg := 1 }) ∧
    stands [0x39, 0x40] (.jcA 0x40) ∧ stands [0x3A, 0x79] (.jcX { off := 15, reg := 1 }) ∧
    stands [0x3B, 0x40] (.jncA 0x40) ∧ stands [0x3C, 0x00] (.jncX { off := 0, reg := 0 }) ∧
    stands [0x3D, 0x10] (.jzA 0x10) ∧ stands [0x3E, 0x02] (.jzX { off := 0, reg := 2 }) ∧
    stands [0x3F, 0x00] (.jnzA 0x00) ∧ stands [0x40, 0x80] (.jnzX { off := 16, reg := 0 }) := by decide

theorem test_decode_jump_on_o_s :
    stands [0x41, 0x40] (.joA 0x40) ∧ stands [0x42, 0x04] (.joX { off := 0, reg := 4 }) ∧
    stands [0x43, 0x41] (.jnoA 0x41) ∧ stands [0x44, 0x03] (.jnoX { off := 0, reg := 3 }) ∧
    stands [0x45, 0x42] (.jsA 0x42) ∧ stands [0x46, 0x09] (.jsX { off := 1, reg := 1 }) ∧
    stands [0x47, 0x43] (.jnsA 0x43) ∧ stands [0x48, 0xF8] (.jnsX { off := 31, reg := 0 }) := by decide

theorem test_decode_stack :
    stands [0x49, 0x7E] (.pushI 0x7E) ∧ stands [0x4A, 0x01] (.pushR 1) ∧ stands [0x4B, 0xBF] (.pushA 0xBF) ∧
    stands [0x4C, 0x0C] (.pushX { off := 1, reg := 4 }) ∧ stands [0x4D, 0x02] (.pop 2) ∧ stands [0x4E] .pushf ∧
    stands [0x4F] .popf := by decide

theorem test_decode_subroutine_io_halt :
    stands [0x50, 0x40] (.callA 0x40) ∧ stands [0x51, 0x02] (.callX { off := 0, reg := 2 }) ∧ stands [0x52] .ret ∧
    stands [0x53, 0x03] (.inp 3) ∧ stands [0x54, 0x02] (.outp 2) ∧ stands [0x00] .hlt := by decide

/-- Byte 84 is the last opcode, 85 is refused by name, and a missing operand byte is refused by name (R59, R60). -/
theorem test_decode_refusals :
    decode [0x55, 0, 0] = .error (.invalidOpcode 0x55) ∧ decode [0x54] = .error (.missingOperands 0x54) ∧
    decode [0x0B, 0x00] = .error (.missingOperands 0x0B) ∧ decode [] = .error .noBytes := ⟨rfl, rfl, rfl, rfl⟩

/-- The operand counts R59 lists, opcode by opcode. -/
theorem test_operand_counts :
    ((List.range 85).all fun op =>
      match formOfOpcode (BitVec.ofNat 8 op) with
      | some f => decide (f.nops = operandCount op)
      | none => false) = true := by decide

/-- A table word is read first byte lowest, its missing bytes 0. -/
theorem test_table_word :
    decodeTableWord 24 0x64000B = some (.addI 0 0x64) ∧ decodeTableWord 8 0x37 = some (.jmpA 0) ∧
    decodeTableWord 8 0x55 = none := by decide

/-! ### Data movement (95_test_vectors.md section 2.1) -/

theorem test_step_mov_load :
    look [0x01, 0x00, 0x01] (regs 0 0x5A 0 0) (fun t => t.al == 0x5A && t.bl == 0x5A && t.pc == 3) ∧
    look [0x02, 0x02, 0x50] (put State.reset 0x50 0x7E) (fun t => t.cl == 0x7E) ∧
    look [0x03, 0x00, 0xF9] (put (regs 0 0x51 0 0) 0x50 0x99) (fun t => t.al == 0x99) ∧
    look [0x06, 0x03, 0xFF] (flagged State.reset true false true false) (sees .dl 0xFF true false true false) ∧
    look [0x09, 0x00, 0x80] (put (withSp State.reset 0x80) 0x00 0x09) (fun t => t.al == 0x09) := by decide

theorem test_step_mov_store :
    look [0x04, 0xC0, 0x00] (regs 0x48 0 0 0) (fun t => t.mem.read 0xC0 == 0x48 && t.events == [.display 0xC0 0x48]) ∧
    look [0x05, 0x01, 0x00] (regs 0x42 0xC1 0 0) (fun t => t.mem.read 0xC1 == 0x42) ∧
    look [0x07, 0x50, 0x99] State.reset (fun t => t.mem.read 0x50 == 0x99 && t.events == []) ∧
    look [0x08, 0x84, 0x01] State.reset (fun t => t.mem.read 0xAF == 0x01) ∧
    look [0x0A, 0x01, 0x00] (regs 0x2A 0 0 0) (fun t => t.mem.read 0xC0 == 0x2A && t.pc == 3) := by decide

theorem test_step_mov_faults :
    look [0x01, 0x04, 0x00] State.reset (faulted (.invalidRegister 4) 2) ∧
    look [0x03, 0x00, 0xD1] (regs 0 5 0 0) (faulted (.addressOutOfBounds (-1)) 2) ∧
    look [0x0A, 0x7F, 0x00] (regs 0x2A 0 0 0) (faulted (.addressOutOfBounds 318) 2) := by decide

/-! ### Arithmetic and comparison (sections 2.2 to 2.4) -/

theorem test_step_add :
    look [0x0B, 0x00, 0x64] (regs 0x64 0 0 0) (sees .al 0xC8 false true false true) ∧
    look [0x0C, 0x00, 0x00] (regs 0x81 0 0 0) (sees .al 0x02 true true false false) ∧
    look [0x0D, 0x00, 0x50] (put (regs 0x30 0 0 0) 0x50 0xD0) (sees .al 0x00 true false true false) ∧
    look [0x0E, 0x00, 0x09] (put (regs 0x30 0x4F 0 0) 0x50 0x01) (sees .al 0x31 false false false false) := by decide

/-- `subA` by hand from R107: 0x10 - 0x20. -/
theorem test_step_sub :
    look [0x0F, 0x00, 0x01] (regs 0x00 0 0 0) (sees .al 0xFF true false false true) ∧
    look [0x10, 0x01, 0x01] (regs 0 0x37 0 0) (sees .bl 0x00 false false true false) ∧
    look [0x11, 0x00, 0x50] (put (regs 0x10 0 0 0) 0x50 0x20) (sees .al 0xF0 true false false true) ∧
    look [0x12, 0x03, 0x02] (put (regs 0 0 0x60 0x10) 0x60 0x11) (sees .dl 0xFF true false false true) := by decide

theorem test_step_inc_dec_neg :
    look [0x13, 0x00] (flagged (regs 0x7F 0 0 0) true true false false) (sees .al 0x80 false true false true) ∧
    look [0x14, 0x00] (flagged (regs 0x80 0 0 0) true true false false) (sees .al 0x7F true true false false) ∧
    look [0x15, 0x00] (flagged (regs 0x80 0 0 0) true true false false) (sees .al 0x80 true true false true) := by decide

/-- `mulX` by hand from R115: 2 * 0x80. -/
theorem test_step_mul :
    look [0x16, 0x00, 0xFF] (regs 0xFF 0 0 0) (sees .al 0x01 true true false false) ∧
    look [0x17, 0x01, 0x01] (regs 0 0x10 0 0) (sees .bl 0x00 true true true false) ∧
    look [0x18, 0x02, 0x50] (put (regs 0 0 0x03 0) 0x50 0x55) (sees .cl 0xFF false false false true) ∧
    look [0x19, 0x02, 0x01] (put (regs 0 0x50 0x02 0) 0x50 0x80) (sees .cl 0x00 true true true false) := by decide

theorem test_step_div :
    look [0x1A, 0x00, 0x02] (regs 0x07 0 0 0) (sees .al 0x03 false false false false) ∧
    look [0x1B, 0x02, 0x02] (regs 0 0 0x09 0) (sees .cl 0x01 false false false false) ∧
    look [0x1C, 0x00, 0x70] (regs 0x09 0 0 0) (faulted .divisionByZero 2) ∧
    look [0x1D, 0x00, 0x01] (put (regs 0xC8 0x40 0 0) 0x40 0x0A) (sees .al 0x14 false false false false) ∧
    look [0x1A, 0x05, 0x00] (regs 0x09 0 0 0) (faulted (.invalidRegister 5) 2) := by decide

theorem test_step_cmp :
    look [0x1E, 0x00, 0xFF] (regs 0x7F 0 0 0) (sees .al 0x7F true true false true) ∧
    look [0x1F, 0x03, 0x03] (regs 0 0 0 0x99) (sees .dl 0x99 false false true false) ∧
    look [0x20, 0x00, 0xC0] (regs 0x20 0 0 0) (sees .al 0x20 false false true false) ∧
    look [0x21, 0x00, 0x0C] (put (withSp (regs 5 0 0 0) 0xBE) 0xBF 0x06) (sees .al 5 true false false true) := by decide

/-! ### Logical and shift (sections 2.3 to 2.5) -/

/-- `andA`, `andX` by hand from R144, R145. -/
theorem test_step_and :
    look [0x22, 0x00, 0x3C] (regs 0xF0 0 0 0) (sees .al 0x30 false false false false) ∧
    look [0x23, 0x00, 0x01] (flagged (regs 0xCC 0xAA 0 0) true true false false) (sees .al 0x88 false false false true) ∧
    look [0x24, 0x01, 0x60] (put (regs 0 0xF0 0 0) 0x60 0x0F) (sees .bl 0x00 false false true false) ∧
    look [0x25, 0x02, 0x03] (put (regs 0 0 0xFF 0x61) 0x61 0x81) (sees .cl 0x81 false false false true) := by decide

/-- `orR`, `orX` by hand from R147, R149. -/
theorem test_step_or :
    look [0x26, 0x00, 0x0F] (regs 0xF0 0 0 0) (sees .al 0xFF false false false true) ∧
    look [0x27, 0x01, 0x02] (regs 0 1 2 0) (sees .bl 0x03 false false false false) ∧
    look [0x28, 0x01, 0x60] (put (regs 0 0x01 0 0) 0x60 0x80) (sees .bl 0x81 false false false true) ∧
    look [0x29, 0x02, 0x03] (put (regs 0 0 0x10 0x61) 0x61 0x02) (sees .cl 0x12 false false false false) := by decide

/-- `xorA` by hand from R152. -/
theorem test_step_xor :
    look [0x2A, 0x00, 0x55] (regs 0xAA 0 0 0) (sees .al 0xFF false false false true) ∧
    look [0x2B, 0x00, 0x00] (flagged (regs 0x5A 0 0 0) true false false false) (sees .al 0x00 false false true false) ∧
    look [0x2C, 0x01, 0x60] (put (regs 0 0x0F 0 0) 0x60 0x01) (sees .bl 0x0E false false false false) ∧
    look [0x2D, 0x02, 0x03] (put (regs 0 0 0xFF 0x61) 0x61 0x0F) (sees .cl 0xF0 false false false true) := by decide

theorem test_step_not :
    look [0x2E, 0x00] (flagged (regs 0xFF 0 0 0) true true false false) (sees .al 0x00 false false true false) := by decide

/-- `shlA`, `shlX` by hand from R157, R158. -/
theorem test_step_shl :
    look [0x2F, 0x00, 0x08] (regs 0x01 0 0 0) (sees .al 0x00 true false true false) ∧
    look [0x30, 0x00, 0x00] (regs 0x02 0 0 0) (sees .al 0x08 false false false false) ∧
    look [0x31, 0x01, 0x50] (put (regs 0 0x81 0 0) 0x50 0x01) (sees .bl 0x02 true false false false) ∧
    look [0x32, 0x01, 0x02] (put (regs 0 0xFF 0x50 0) 0x50 0x07) (sees .bl 0x80 true false false true) := by decide

/-- `shrR` by hand from R160. -/
theorem test_step_shr :
    look [0x33, 0x00, 0x08] (regs 0x80 0 0 0) (sees .al 0x00 true false true false) ∧
    look [0x34, 0x00, 0x01] (regs 0x81 2 0 0) (sees .al 0x20 false false false false) ∧
    look [0x35, 0x01, 0x50] (put (regs 0 0xF0 0 0) 0x50 0x04) (sees .bl 0x0F false false false false) ∧
    look [0x36, 0x00, 0x01] (flagged (regs 0x80 0x50 0 0) true false true false)
      (sees .al 0x80 true false true false) := by decide

/-- An amount of 0 leaves the flags, amounts of 9 and 255 shift everything out (R163). -/
theorem test_step_shift_amounts :
    look [0x2F, 0x00, 0x00] (flagged (regs 0x81 0 0 0) true true true true) (sees .al 0x81 true true true true) ∧
    look [0x33, 0x00, 0x09] (regs 0xFF 0 0 0) (sees .al 0x00 false false true false) ∧
    look [0x2F, 0x00, 0xFF] (regs 0xFF 0 0 0) (sees .al 0x00 false false true false) := by decide

/-! ### Control flow (section 2.6) -/

/-- The direct forms at 0x10 with every flag 0: taken are JMP, JNC, JNZ, JNO, JNS. -/
theorem test_step_jump_flags_clear :
    ([(0x37, 0x40), (0x39, 0x12), (0x3B, 0x40), (0x3D, 0x12), (0x3F, 0x40), (0x41, 0x12), (0x43, 0x40), (0x45, 0x12),
      (0x47, 0x40)] : List (Byte × Int)).all
      (fun row => look [row.1, 0x40] (atPc State.reset 0x10) fun t => decide (t.pc = row.2)) := by decide

/-- The direct forms at 0x10 with the flag they test 1: taken are JC, JZ, JO, JS. -/
theorem test_step_jump_flags_set :
    ([(0x39, 0x40, true, false, false, false), (0x3B, 0x12, true, false, false, false),
      (0x41, 0x40, false, true, false, false), (0x43, 0x12, false, true, false, false),
      (0x3D, 0x40, false, false, true, false), (0x3F, 0x12, false, false, true, false),
      (0x45, 0x40, false, false, false, true), (0x47, 0x12, false, false, false, true)] :
        List (Byte × Int × Bool × Bool × Bool × Bool)).all
      (fun (op, pc, c, o, z, n) =>
        look [op, 0x40] (atPc (flagged State.reset c o z n) 0x10) fun t => decide (t.pc = pc)) := by decide

/-- The register-indirect forms go to the address computed, unmasked (R170): JMP [BL+15], JMP [AL-16]. -/
theorem test_step_jump_indirect :
    look [0x38, 0x79] (regs 0 0xFF 0 0) (fun t => t.pc == 270) ∧
    look [0x38, 0x80] State.reset (fun t => t.pc == -16) ∧
    look [0x3E, 0x02] (flagged (regs 0 0 0x30 0) false false true false) (fun t => t.pc == 0x30) ∧
    look [0x3A, 0x79] (regs 0 0xFF 0 0) (fun t => t.pc == 2) := by decide

/-- The other register-indirect forms, taken, by hand from R175, R181, R183, R185, R187, R189. -/
theorem test_step_jump_indirect_taken :
    ([(0x3C, false, false, false, false), (0x40, false, false, false, false), (0x42, false, true, false, false),
      (0x44, false, false, false, false), (0x46, false, false, false, true), (0x48, false, false, false, false)] :
        List (Byte × Bool × Bool × Bool × Bool)).all
      (fun (op, c, o, z, n) =>
        look [op, 0x0A] (flagged (regs 0 0 0x30 0) c o z n) fun t => decide (t.pc = 0x31)) := by decide

/-! ### Stack, subroutine, input and output, halt (sections 2.7 to 2.9) -/

theorem test_step_push :
    look [0x49, 0x7E] State.reset (fun t => t.mem.read 0xBF == 0x7E && t.sp == 0xBE) ∧
    look [0x4A, 0x01] (regs 0 0x22 0 0) (fun t => t.mem.read 0xBF == 0x22) ∧
    look [0x4B, 0xBF] (put State.reset 0xBF 0x31) (fun t => t.mem.read 0xBF == 0x31 && t.sp == 0xBE) ∧
    look [0x4C, 0x0C] (put (withSp State.reset 0xBD) 0xBE 0x33) (fun t => t.mem.read 0xBD == 0x33) ∧
    look [0x4E] (flagged State.reset true true true true) (fun t => t.mem.read 0xBF == 0x1E) := by decide

theorem test_step_push_faults :
    look [0x49, 0x55] (withSp State.reset 0x80)
      (fun t => faulted (.stackOverflow 0x7F) 1 t && t.mem.read 0x80 == 0x55 && t.sp == 0x7F) ∧
    look [0x4C, 0x79] (withSp (regs 0 0xFF 0 0) 0x80) (faulted (.addressOutOfBounds 270) 1) := by decide

theorem test_step_pop :
    look [0x4D, 0x02] (put (withSp State.reset 0xBE) 0xBF 0x44) (fun t => t.cl == 0x44 && t.sp == 0xBF) ∧
    look [0x4F] (put (withSp State.reset 0xBE) 0xBF 0xFF)
      (fun t => t.sr == 0x1E && t.sp == 0xBF) ∧
    look [0x4D, 0x02] (regs 0 0 9 0) (fun t => faulted (.stackUnderflow 0xC0) 1 t && t.cl == 9 && t.sp == 0xC0) ∧
    look [0x4D, 0x07] (withSp State.reset 0xBE) (fun t => faulted (.invalidRegister 7) 1 t && t.sp == 0xBE) := by decide

theorem test_step_call_ret :
    look [0x50, 0x00] (atPc State.reset 0xFE) (fun t => t.mem.read 0xBF == 0x00 && t.pc == 0x00 && t.sp == 0xBE) ∧
    look [0x51, 0x0C] (atPc (put (withSp State.reset 0xBE) 0xBF 0x77) 0x10)
      (fun t => t.mem.read 0xBE == 0x12 && t.pc == 0xBF) ∧
    look [0x52] (put (withSp State.reset 0xBE) 0xBF 0x12) (fun t => t.pc == 0x12 && t.sp == 0xBF) := by decide

theorem test_step_io_halt :
    look [0x53, 0x03] (State.reset.supplyInput 0x03 0x80) (fun t => t.al == 0x80 && t.events == [.portIn 3 0x80]) ∧
    look [0x53, 0x01] State.reset (fun t => t.pc == 0 && t.al == 0) ∧
    look [0x54, 0x02] (regs 0x84 0 0 0) (fun t => t.events == [.portOut 2 0x84] && t.pc == 2) ∧
    look [0x00] State.reset (fun t => t.isHalted && t.pc == 1) := by decide

/-! ### The step (section 2.9; R60, R62, R233) -/

theorem test_step_fetch_faults :
    look [0x55] State.reset (faulted (.invalidOpcode 0x55) 0) ∧
    look [] (atPc State.reset 256) (faulted (.instructionPointerOutOfBounds 256) 256) ∧
    look [0x0B, 0x00] (atPc State.reset 0xFE) (faulted (.addressOutOfBounds 256) 256) := by decide

/-- A word placed by `withFetchWord` is the next instruction run. -/
theorem test_withFetchWord :
    (match step (State.reset.withFetchWord 24 0x640006) with
      | .next t => t.al == 0x64
      | _ => false) = true := by decide

/-! ### The assembler (sections 1.6 and 1.8) -/

theorem test_assemble_end_to_end :
    (match Asm.assemble "MOV AL,10\nMOV BL,10\nCMP AL,BL\nJE L\nMOV CL,0\nJMP E\nL: MOV CL,1\nE: HLT".toList with
      | .ok out => out.bytes
      | .error _ => []) =
    [0x06, 0, 0x0A, 0x06, 1, 0x0A, 0x1F, 0, 1, 0x3D, 0x10, 0x06, 2, 0, 0x37, 0x13, 0x06, 2, 1, 0] := by decide

/-- Pass 2 overwrites a recorded address whatever pass 1 wrote there later (R70). -/
theorem test_assemble_overwrite :
    (match Asm.assemble "JMP L\nL: HLT\nORG 1\nDB 0x55".toList with
      | .ok out => out.bytes
      | .error _ => []) = [0x37, 0x02, 0x00] := by decide

/-- A stack offset is the byte (+k or -k) mod 256: 200, 128, -129 and -255 give 0xC8, 0x80, 0x7F and 0x01 (R66). -/
theorem test_assemble_stack_offset :
    ([200, 128, -129, -255].map fun k : Int => (Asm.Operand.stackOffset k).payload) =
      [.ok (.byte 0xC8), .ok (.byte 0x80), .ok (.byte 0x7F), .ok (.byte 0x01)] ∧
    (match Asm.assemble "MOV AL,[SP+200]".toList with
      | .ok out => out.bytes
      | .error _ => []) = [0x09, 0x00, 0xC8] := by
  constructor
  · rfl
  · decide

theorem test_assemble_errors :
    Asm.assemble "JMP nowhere\nHLT".toList = .error { kind := .undefinedLabel, line := 1 } ∧
    Asm.assemble "a: HLT\na: HLT".toList = .error { kind := .duplicateLabel, line := 2 } := by
  constructor <;> rfl

/-! ### Witnesses: the hypotheses of every obligation that has any, met at concrete states -/

theorem witness_LoadProgramFillsProgramRegion :
    192 < (List.replicate 193 (0 : Byte)).length ∧ (List.replicate 192 (0 : Byte)).length ≤ 192 ∧
    (0 : Nat) < [(1 : Byte)].length :=
  ⟨by rw [List.length_replicate]; decide, by rw [List.length_replicate], by decide⟩

theorem witness_EncodeOfDecode : decode [0x0B, 0x00, 0x64, 0x52] = .ok (.addI 0 0x64, [0x52]) := rfl

/-- The clauses at opcodes 85 and 84, one operand byte missing and just enough. -/
theorem witness_OpcodeFixesLength :
    85 ≤ (0x55 : Byte).toNat ∧ 85 ≤ (0xFF : Byte).toNat ∧
    ((0x54 : Byte).toNat < 85 ∧ ([] : List Byte).length < operandCount (0x54 : Byte).toNat) ∧
    ((0x54 : Byte).toNat < 85 ∧ operandCount (0x54 : Byte).toNat ≤ [(0x02 : Byte)].length) ∧
    ((0x00 : Byte).toNat < 85 ∧ operandCount (0x00 : Byte).toNat ≤ ([] : List Byte).length) := by decide

/-- HLT at address 0 and, at the last address, the one-byte PUSHF. -/
theorem witness_StepRunsDecoded :
    (State.reset.rs = .ready ∧ InSpace State.reset.pc ∧
      decode (State.reset.bytesAt State.reset.pc) = .ok (.hlt, [0x00, 0x00])) ∧
    (∃ s : State, s.rs = .ready ∧ InSpace s.pc ∧ s.pc = 255 ∧ decode (s.bytesAt s.pc) = .ok (.pushf, [])) :=
  ⟨⟨rfl, ⟨by decide, by decide⟩, rfl⟩,
    atPc (put State.reset 0xFF 0x4E) 255, rfl, ⟨by decide, by decide⟩, rfl, rfl⟩

/-- pc just outside on both sides; opcode 85 at both ends; a missing last operand byte at 0xFE and at 0xFF. -/
theorem witness_FetchFaults :
    (¬InSpace (atPc State.reset (-1)).pc ∧ ¬InSpace (atPc State.reset 256).pc ∧ State.reset.rs = .ready) ∧
    85 ≤ (byteAt (put State.reset 0 0x55) 0).toNat ∧ 85 ≤ (byteAt (put State.reset 0xFF 0xFF) 255).toNat ∧
    (InSpace 254 ∧ (byteAt (put State.reset 0xFE 0x0B) 254).toNat < 85 ∧
      (255 : Int) < 254 + operandCount (byteAt (put State.reset 0xFE 0x0B) 254).toNat) ∧
    (InSpace 255 ∧ (byteAt (put State.reset 0xFF 0x54) 255).toNat < 85 ∧
      (255 : Int) < 255 + operandCount (byteAt (put State.reset 0xFF 0x54) 255).toNat) := by
  refine ⟨⟨fun h => absurd h.1 (by decide), fun h => absurd h.2 (by decide), rfl⟩, by decide, by decide,
    ⟨⟨by decide, by decide⟩, by decide, by decide⟩, ⟨by decide, by decide⟩, by decide, by decide⟩

theorem witness_PcAfterInstruction :
    ∃ t, State.reset.rs = .ready ∧ InSpace State.reset.pc ∧
      decode (State.reset.bytesAt State.reset.pc) = .ok (.hlt, [0x00, 0x00]) ∧ Instr.hlt.form ∉ transferVariants ∧
      step State.reset = .next t ∧ ∀ r, t.rs ≠ .faulted r :=
  ⟨_, rfl, ⟨by decide, by decide⟩, rfl, by decide, rfl, fun _ h => nomatch h⟩

theorem witness_EveryInstructionAnswers : State.reset.rs = .ready := rfl

/-- The reset state after an undefined opcode byte at address 0. -/
def faultedState : State := faultState (.invalidOpcode 0x55) (put State.reset 0 0x55)

theorem witness_FaultedReRaisesForever : faultedState.rs = .faulted (.invalidOpcode 0x55) := rfl

theorem witness_HaltedHasNoStep : ({ State.reset with rs := .halted } : State).rs = .halted := rfl

/-- A state with a listed byte, and a store that adds another. -/
theorem witness_StepKeepsMemoryCanonical :
    (put State.reset 0 0x4E).mem.wf ∧ ∃ t, step (put State.reset 0 0x4E) = .next t := ⟨by decide, _, rfl⟩

/-- The boundary values of both ranges, Ready and Faulted, and a step from one of them. -/
theorem witness_StepKeepsRanges :
    (atPc (withSp State.reset 0x80) (-16)).inRange ∧ (atPc State.reset 270).inRange ∧
    ({ faultedState with sp := 0x7F } : State).inRange ∧ ({ faultedState with sp := 0xC0 } : State).inRange ∧
    ∃ t, step (atPc State.reset 270) = .next t :=
  ⟨⟨by decide, (by decide : 0x80 ≤ (0x80 : Byte).toNat ∧ (0x80 : Byte).toNat ≤ 0xBF)⟩,
    ⟨by decide, (by decide : 0x80 ≤ (0xBF : Byte).toNat ∧ (0xBF : Byte).toNat ≤ 0xBF)⟩,
    ⟨by decide, (by decide : 0x7F ≤ (0x7F : Byte).toNat ∧ (0x7F : Byte).toNat ≤ 0xC0)⟩,
    ⟨by decide, (by decide : 0x7F ≤ (0xC0 : Byte).toNat ∧ (0xC0 : Byte).toNat ≤ 0xC0)⟩, _, rfl⟩

theorem witness_StepKeepsFaultFlag :
    (State.reset.faultFlagAgrees ∧ ∃ t, step State.reset = .next t) ∧
    (faultedState.faultFlagAgrees ∧ ∃ t, step faultedState = .next t) := by
  exact ⟨⟨⟨(fun h => nomatch h), fun ⟨_, h⟩ => nomatch h⟩, _, rfl⟩,
    ⟨⟨fun _ => ⟨_, rfl⟩, fun _ => rfl⟩, _, rfl⟩⟩

theorem witness_RunStateTransitions : ∃ t, exec .hlt State.reset = .next t := ⟨_, rfl⟩

theorem witness_OnlyHltHalts : ∃ t, step State.reset = .next t ∧ t.rs = .halted := ⟨_, rfl, rfl⟩

theorem witness_OnlyStackInstructionsMoveSp :
    ∃ t, exec (.movRS 0 0) State.reset = .next t ∧ (Instr.movRS 0 0).form ∉ stackVariants := ⟨_, rfl, by decide⟩

theorem witness_OnlyFlagWritersWriteFlags :
    ∃ t, exec .pushf State.reset = .next t ∧ Instr.pushf.form ∉ flagWriters := ⟨_, rfl, by decide⟩

/-- BL under a write of AL, and AL under an instruction with no destination. -/
theorem witness_OnlyDestinationWritten :
    (∃ t, exec (.movRI 0 1) State.reset = .next t ∧ destination (.movRI 0 1) ≠ some Reg.bl.toByte) ∧
    (∃ t, exec (.outp 2) State.reset = .next t ∧ destination (.outp 2) ≠ some Reg.al.toByte) :=
  ⟨⟨_, rfl, by decide⟩, _, rfl, by decide⟩

/-- The address next to the one stored to, and any address under an instruction that stores nothing. -/
theorem witness_OnlyStoreAddressWritten :
    (∃ t, exec (.movAI 0xC0 1) State.reset = .next t ∧ storeAddress (.movAI 0xC0 1) State.reset ≠ some 0xC1) ∧
    (∃ t, exec (.movRI 0 1) State.reset = .next t ∧ storeAddress (.movRI 0 1) State.reset ≠ some 0) :=
  ⟨⟨_, rfl, by decide⟩, _, rfl, by decide⟩

theorem witness_EventsPerStep :
    ∃ t, exec (.outp 2) State.reset = .next t ∧ ∀ p, Instr.outp 2 ≠ .inp p := ⟨_, rfl, fun _ h => nomatch h⟩

/-- A fault that changes nothing, a stack overflow and a stack underflow, each from a state that is not Faulted. -/
theorem witness_FaultsArePrecise :
    (∃ t, exec (.divI 0 0) State.reset = .next t ∧ t.rs = .faulted .divisionByZero) ∧
    (∃ t, exec (.pushI 1) (withSp State.reset 0x80) = .next t ∧ t.rs = .faulted (.stackOverflow 0x7F)) ∧
    (∃ t, exec .ret State.reset = .next t ∧ t.rs = .faulted (.stackUnderflow 0xC0)) ∧
    (∀ r, State.reset.rs ≠ .faulted r) ∧ ∀ r, (withSp State.reset 0x80).rs ≠ .faulted r :=
  ⟨⟨_, rfl, rfl⟩, ⟨_, rfl, rfl⟩, ⟨_, rfl, rfl⟩, (fun _ h => nomatch h), fun _ h => nomatch h⟩

/-- The first byte bad at 4, the second at 255, both bad. -/
theorem witness_InvalidRegisterByteFaults :
    (Instr.addR 4 0).regBytes.find? (fun c => decide (4 ≤ c.toNat)) = some 4 ∧
    (Instr.addR 3 255).regBytes.find? (fun c => decide (4 ≤ c.toNat)) = some 255 ∧
    (Instr.addR 5 9).regBytes.find? (fun c => decide (4 ≤ c.toNat)) = some 5 := by decide

/-- Addresses -1 and 256. -/
theorem witness_DataAddressOutOfBoundsFaults :
    (WellFormed (.addX 0 { off := 31, reg := 1 }) = true ∧
      dataAddress (.addX 0 { off := 31, reg := 1 }) State.reset = some (-1) ∧ ¬InSpace (-1)) ∧
    (WellFormed (.movSR 0x41 0) = true ∧ dataAddress (.movSR 0x41 0) State.reset = some 256 ∧ ¬InSpace 256) :=
  ⟨⟨rfl, by decide, fun h => absurd h.1 (by decide)⟩, rfl, by decide, fun h => absurd h.2 (by decide)⟩

/-- All four forms with a divisor of 0: the immediate, a register, and the zeros of memory. -/
theorem witness_DivisionByZeroFaults :
    SourceForm .divI .divR .divA .divX State.reset .al (.divI 0 0) 0 ∧
    SourceForm .divI .divR .divA .divX State.reset .al (.divR 0 1) 0 ∧
    SourceForm .divI .divR .divA .divX State.reset .al (.divA 0 0x70) 0 ∧
    SourceForm .divI .divR .divA .divX State.reset .al (.divX 0 { off := 0, reg := 1 }) 0 :=
  ⟨.immediate 0, .register .bl, .direct 0x70, .indirect { off := 0, reg := 1 } ⟨by decide, by decide⟩⟩

theorem witness_MemReadRule :
    ((-1 : Int) < 0 ∨ (-1 : Int) > 255) ∧ ((256 : Int) < 0 ∨ (256 : Int) > 255) ∧ (0 ≤ (0 : Int) ∧ (0 : Int) ≤ 255) ∧
    (0 ≤ (255 : Int) ∧ (255 : Int) ≤ 255) := by decide

/-- Both ends of the memory, and the two addresses just outside. -/
theorem witness_MemWriteRule : ¬InSpace (-1) ∧ ¬InSpace 256 ∧ InSpace 0 ∧ InSpace 255 :=
  ⟨fun h => absurd h.1 (by decide), fun h => absurd h.2 (by decide), ⟨by decide, by decide⟩, by decide, by decide⟩

/-- The families quantified over, and SP at both ends of its range. -/
theorem witness_DirectAddressIsLiteral :
    DirectBesideImmediate .addA .addI ∧ DirectBesideImmediate .shrA .shrI ∧
    JumpFamily .jmpA .jmpX (fun _ => true) ∧ JumpFamily .jnsA .jnsX (fun fl => !fl.s) ∧
    (0x81 ≤ State.reset.sp.toNat ∧ State.reset.sp.toNat ≤ 0xBF) ∧
    (0x81 ≤ (withSp State.reset 0x81).sp.toNat ∧ (withSp State.reset 0x81).sp.toNat ≤ 0xBF) :=
  ⟨.add, .shr, .jmp, .jns, by decide, by decide⟩

/-- SP at both ends of its range and at 0xBD, an execution of each instruction, an address in memory. -/
theorem witness_StackOffsetAddress :
    (0x80 ≤ (0x80 : Byte).toNat ∧ (0x80 : Byte).toNat ≤ 0xBF) ∧
    (0x80 ≤ (0xBF : Byte).toNat ∧ (0xBF : Byte).toNat ≤ 0xBF) ∧
    (withSp State.reset 0xBD).sp = 0xBD ∧ (∃ t, exec (.movRS 0 0) State.reset = .next t) ∧
    (∃ t, exec (.movSR 0x7F 0) State.reset = .next t) ∧ InSpace (State.reset.eaSp 0x40) ∧
    InSpace ((withSp State.reset 0x80).eaSp 0x80) :=
  ⟨by decide, by decide, rfl, ⟨_, rfl⟩, ⟨_, rfl⟩, ⟨by decide, by decide⟩, by decide, by decide⟩

theorem witness_MovToRegister :
    LoadForm (regs 0 7 0 0) .al (.movRR 0 1) 7 ∧ LoadForm State.reset .dl (.movRI 3 0xFF) 0xFF ∧
    LoadForm State.reset .al (.movRA 0 0xFF) 0x20 ∧ LoadForm State.reset .al (.movRX 0 { off := 0, reg := 1 }) 0 ∧
    LoadForm State.reset .al (.movRS 0 0x40) 0x20 :=
  ⟨.register .bl, .immediate 0xFF, .direct 0xFF, .indirect { off := 0, reg := 1 } ⟨by decide, by decide⟩,
    .stackOffset 0x40 ⟨by decide, by decide⟩⟩

/-- Each form, at 0, at 255 and beside the display region. -/
theorem witness_MovToMemory :
    StoreForm State.reset (.movAR 0xC0 0) 0xC0 0 ∧ StoreForm State.reset (.movXR { off := 0, reg := 1 } 0) 0 0 ∧
    StoreForm State.reset (.movAI 0xFF 9) 0xFF 9 ∧ StoreForm State.reset (.movXI { off := 0, reg := 4 } 9) 0xBF 9 ∧
    StoreForm State.reset (.movSR 0x40 0) 0xFF 0 ∧ InSpace 0xC0 ∧ InSpace 0 ∧ InSpace 0xFF ∧ InSpace 0xBF :=
  ⟨.directRegister 0xC0 .al, .indirectRegister { off := 0, reg := 1 } .al, .directImmediate 0xFF 9,
    .indirectImmediate { off := 0, reg := 4 } 9, .stackRegister 0x40 .al, ⟨by decide, by decide⟩,
    ⟨by decide, by decide⟩, ⟨by decide, by decide⟩, by decide, by decide⟩

/-- The four source forms of any two-operand ALU instruction, destination AL, second operand from the reset state. -/
theorem forms_at_reset (imm reg dir : Byte → Byte → Instr) (ind : Byte → Indirect → Instr) :
    SourceForm imm reg dir ind State.reset .al (imm 0 0xFF) 0xFF ∧
    SourceForm imm reg dir ind State.reset .al (reg 0 1) 0x00 ∧
    SourceForm imm reg dir ind State.reset .al (dir 0 0xC0) 0x20 ∧
    SourceForm imm reg dir ind State.reset .al (ind 0 { off := 1, reg := 4 }) 0x20 :=
  ⟨.immediate 0xFF, .register .bl, .direct 0xC0, .indirect { off := 1, reg := 4 } ⟨by decide, by decide⟩⟩

theorem witness_AddResult : SourceForm .addI .addR .addA .addX State.reset .al (.addI 0 0xFF) 0xFF :=
  (forms_at_reset _ _ _ _).1

theorem witness_SubResult : SourceForm .subI .subR .subA .subX State.reset .al (.subA 0 0xC0) 0x20 :=
  (forms_at_reset _ _ _ _).2.2.1

theorem witness_CmpOrdersOperands :
    SourceForm .cmpI .cmpR .cmpA .cmpX State.reset .al (.cmpX 0 { off := 1, reg := 4 }) 0x20 :=
  (forms_at_reset _ _ _ _).2.2.2

/-- Also with an operand of 0, as the clause on 0 asks. -/
theorem witness_MulResult :
    SourceForm .mulI .mulR .mulA .mulX State.reset .al (.mulR 0 1) 0 ∧ (State.reset.reg .al = 0 ∨ (0 : Byte) = 0) :=
  ⟨(forms_at_reset _ _ _ _).2.1, .inl rfl⟩

theorem witness_DivResult :
    SourceForm .divI .divR .divA .divX State.reset .al (.divA 0 0xC0) 0x20 ∧ (0x20 : Byte) ≠ 0 :=
  ⟨(forms_at_reset _ _ _ _).2.2.1, by decide⟩

theorem witness_SourceFlagExamples :
    (SourceForm .addI .addR .addA .addX (regs 0x64 0 0 0) .al (.addI 0 0x64) 0x64 ∧ (regs 0x64 0 0 0).reg .al = 0x64) ∧
    (SourceForm .subI .subR .subA .subX State.reset .al (.subI 0 0x01) 0x01 ∧ State.reset.reg .al = 0x00) ∧
    (SourceForm .mulI .mulR .mulA .mulX (regs 20 20 0 0) .al (.mulR 0 1) 20 ∧ (regs 20 20 0 0).reg .al = 20) :=
  ⟨⟨.immediate 0x64, rfl⟩, ⟨.immediate 0x01, rfl⟩, .register .bl, rfl⟩

theorem witness_BitwiseResult :
    SourceForm .andI .andR .andA .andX State.reset .al (.andI 0 0xFF) 0xFF ∧
    SourceForm .orI .orR .orA .orX State.reset .al (.orR 0 1) 0x00 ∧
    SourceForm .xorI .xorR .xorA .xorX State.reset .al (.xorX 0 { off := 1, reg := 4 }) 0x20 :=
  ⟨(forms_at_reset _ _ _ _).1, (forms_at_reset _ _ _ _).2.1, (forms_at_reset _ _ _ _).2.2.2⟩

/-- Amounts 1 and 255, the ends of the range. -/
theorem witness_ShlResult :
    (SourceForm .shlI .shlR .shlA .shlX State.reset .al (.shlI 0 0xFF) 0xFF ∧ (0xFF : Byte) ≠ 0) ∧
    (SourceForm .shlI .shlR .shlA .shlX State.reset .al (.shlI 0 1) 1 ∧ (1 : Byte) ≠ 0) :=
  ⟨⟨(forms_at_reset _ _ _ _).1, by decide⟩, .immediate 1, by decide⟩

/-- Amounts 1 and 255, the ends of the range. -/
theorem witness_ShrResult :
    (SourceForm .shrI .shrR .shrA .shrX State.reset .al (.shrI 0 0xFF) 0xFF ∧ (0xFF : Byte) ≠ 0) ∧
    (SourceForm .shrI .shrR .shrA .shrX State.reset .al (.shrI 0 1) 1 ∧ (1 : Byte) ≠ 0) :=
  ⟨⟨(forms_at_reset _ _ _ _).1, by decide⟩, .immediate 1, by decide⟩

theorem witness_ShiftByZeroChangesNothing :
    ShiftFamily .shlI .shlR .shlA .shlX ∧ SourceForm .shlI .shlR .shlA .shlX State.reset .al (.shlR 0 1) 0 ∧
    ShiftFamily .shrI .shrR .shrA .shrX ∧ SourceForm .shrI .shrR .shrA .shrX State.reset .al (.shrI 0 0) 0 :=
  ⟨.shl, .register .bl, .shr, .immediate 0⟩

theorem witness_JumpsWriteOnlyPc : JumpFamily .jmpA .jmpX (fun _ => true) ∧ JumpFamily .jcA .jcX (fun fl => fl.c) :=
  ⟨.jmp, .jc⟩

/-- Every form, SP at both ends of the range. -/
theorem witness_PushStoresBelow :
    (PushForm State.reset (.pushI 1) 1 ∧ PushForm State.reset (.pushR 1) 0 ∧ PushForm State.reset (.pushA 0xC0) 0x20 ∧
      PushForm State.reset (.pushX { off := 1, reg := 4 }) 0x20 ∧ PushForm State.reset .pushf 0 ∧
      0x81 ≤ State.reset.sp.toNat ∧ State.reset.sp.toNat ≤ 0xBF) ∧
    (PushForm (withSp State.reset 0x81) (.pushI 1) 1 ∧ 0x81 ≤ (withSp State.reset 0x81).sp.toNat ∧
      (withSp State.reset 0x81).sp.toNat ≤ 0xBF) :=
  ⟨⟨.immediate 1, .register .bl, .direct 0xC0, .indirect { off := 1, reg := 4 } ⟨by decide, by decide⟩, .status,
    by decide, by decide⟩, .immediate 1, by decide, by decide⟩

theorem witness_CallPushesReturnAddress :
    (CallForm State.reset (.callA 0x40) 0x40 ∧ CallForm State.reset (.callX { off := 0, reg := 4 }) 0xBF ∧
      0x81 ≤ State.reset.sp.toNat ∧ State.reset.sp.toNat ≤ 0xBF) ∧
    (CallForm (withSp State.reset 0x81) (.callA 0) 0 ∧ 0x81 ≤ (withSp State.reset 0x81).sp.toNat ∧
      (withSp State.reset 0x81).sp.toNat ≤ 0xBF) :=
  ⟨⟨.direct 0x40, .indirect { off := 0, reg := 4 }, by decide, by decide⟩, .direct 0, by decide, by decide⟩

/-- A push, and a call whose return address is 0x01. -/
theorem witness_PushOverflowFaults :
    (PushForm (withSp State.reset 0x80) (.pushI 9) 9 ∧ (withSp State.reset 0x80).sp = 0x80) ∧
    ((∃ target, CallForm (withSp State.reset 0x80) (.callA 0x40) target) ∧
      (((0x01 : Byte).toNat : Int) = ((withSp State.reset 0x80).pc + 1) % 256)) :=
  ⟨⟨.immediate 9, rfl⟩, ⟨_, .direct 0x40⟩, by decide⟩

theorem witness_PopTakesFromAbove :
    (0x80 ≤ (withSp State.reset 0x80).sp.toNat ∧ (withSp State.reset 0x80).sp.toNat ≤ 0xBE) ∧
    (0x80 ≤ (withSp State.reset 0xBE).sp.toNat ∧ (withSp State.reset 0xBE).sp.toNat ≤ 0xBE) := by decide

theorem witness_PopUnderflowFaults :
    PopForm (.pop 2) ∧ PopForm .popf ∧ PopForm .ret ∧ State.reset.sp = 0xBF := ⟨.register .cl, .status, .ret, rfl⟩

theorem witness_PopUndoesPush :
    (0x81 ≤ State.reset.sp.toNat ∧ State.reset.sp.toNat ≤ 0xBF) ∧
    (0x81 ≤ (withSp State.reset 0x81).sp.toNat ∧ (withSp State.reset 0x81).sp.toNat ≤ 0xBF) ∧
    PushForm State.reset (.pushI 7) 7 ∧ CallForm State.reset (.callA 0x40) 0x40 :=
  ⟨by decide, by decide, .immediate 7, .direct 0x40⟩

/-- An answer waiting behind another port's, and no answer waiting for port 3. -/
theorem witness_InReadsPort :
    (((State.reset.supplyInput 1 0x41).supplyInput 3 0x80).inbox =
        [{ port := 1, value := 0x41 }] ++ { port := 3, value := 0x80 } :: [] ∧
      ∀ a ∈ [({ port := 1, value := 0x41 } : PortAnswer)], a.port ≠ 3) ∧
    ((∀ a ∈ (State.reset.supplyInput 1 0x41).inbox, a.port ≠ 3) ∧ (3 : Byte) ≠ 0x01) := by decide

theorem witness_KeyboardHoldsCore :
    ∃ s : State, s.rs = .ready ∧ InSpace s.pc ∧ decode (s.bytesAt s.pc) = .ok (.inp 0x01, [0x00]) ∧
      ∀ a ∈ s.inbox, a.port ≠ 0x01 :=
  ⟨put (put State.reset 0 0x53) 1 0x01, rfl, ⟨by decide, by decide⟩, rfl, by decide⟩

theorem witness_AssemblerOutputFitsProgramRegion :
    ∃ out, Asm.assemble "ORG 191\nHLT".toList = .ok out ∧ out.bytes.length = 192 := ⟨_, rfl, rfl⟩

end Sys2Proof.Tests
end

section
/-! PROOF. What one instruction can leave, said once: `Effect i s t` lists the states `t` in which `exec i s` may end,
each with the part of the state it writes and with what the instruction must be for it (R21, R231, R232). -/

namespace Sys2Proof.Machine

open Sys2Proof.Claims

/-! ### The state a push leaves before its check (R200) -/

@[simp] theorem sp_pushed (v : Byte) (s : State) : (pushed v s).sp = s.sp - 1 := rfl
@[simp] theorem pc_pushed (v : Byte) (s : State) : (pushed v s).pc = s.pc := State.pc_store ..
@[simp] theorem flags_pushed (v : Byte) (s : State) : (pushed v s).flags = s.flags := State.flags_store ..
@[simp] theorem f_pushed (v : Byte) (s : State) : (pushed v s).f = s.f := State.f_store ..
@[simp] theorem rs_pushed (v : Byte) (s : State) : (pushed v s).rs = s.rs := State.rs_store ..
@[simp] theorem mem_pushed (v : Byte) (s : State) : (pushed v s).mem = s.mem.write s.sp.toNat v := State.mem_store ..
@[simp] theorem inbox_pushed (v : Byte) (s : State) : (pushed v s).inbox = s.inbox := State.inbox_store ..
@[simp] theorem draws_pushed (v : Byte) (s : State) : (pushed v s).draws = s.draws := State.draws_store ..
@[simp] theorem reg_pushed (v : Byte) (s : State) (q : Reg) : (pushed v s).reg q = s.reg q := by simp [pushed]

/-- The memory after a push has the canonical form, the byte being stored at an address of one byte (R200, R31). -/
theorem mem_wf_pushed {s : State} (h : s.mem.wf) (v : Byte) : (pushed v s).mem.wf :=
  State.store_mem_wf h (inMemory_byte s.sp) v

/-! ### The state in which an answered IN goes on (R220) -/

/-- A port answers with the state unchanged but for the inputs and one more event (R220). -/
theorem portIn_frame {s s1 : State} {p v : Byte} (h : s.portIn p = some (v, s1)) :
    ∃ inbox draws, s1 = { s with events := .portIn p v :: s.events, inbox := inbox, draws := draws } := by
  rcases portIn_cases s p with ⟨w, rest, -, e⟩ | ⟨-, -, e⟩ | ⟨-, -, e⟩
  · obtain ⟨rfl, rfl⟩ : w = v ∧ _ = s1 := by simpa using e.symm.trans h
    exact ⟨rest, s.draws, rfl⟩
  · cases e.symm.trans h
  · obtain ⟨rfl, rfl⟩ : _ = v ∧ _ = s1 := by simpa using e.symm.trans h
    exact ⟨s.inbox, s.draws + 1, rfl⟩

@[simp] theorem State.reg_with_inputs (s : State) (events : List Event) (inbox : List PortAnswer) (draws : Nat)
    (q : Reg) : ({ s with events := events, inbox := inbox, draws := draws } : State).reg q = s.reg q := by
  cases q <;> rfl

/-! ### What an instruction can leave -/

/-- The instruction pushes the byte `v`: it is a push or a call, and SP is the address it stores to (R200, R215). -/
structure Pushes (i : Instr) (s : State) (v : Byte) : Prop where
  form : i.form ∈ stackVariants
  address : storeAddress i s = some s.sp.toNat
  byte : pushedByte i s = some v

/-- The two reports of a failed check of SP, which is made after the push or the pop (R200, R201). -/
def FaultReport.ofStack : FaultReport → Bool
  | .stackOverflow _ => true
  | .stackUnderflow _ => true
  | _ => false

/-- The states in which an instruction may end. A constructor names what was written, and its hypotheses say which
instructions write it. -/
inductive Effect (i : Instr) (s : State) : State → Prop where
  /-- A fault raised before anything was written (R231). -/
  | faulted (r : FaultReport) (hr : r.ofStack = false) : Effect i s (s.enterFault r)
  /-- Nothing but `pc <- next`: a jump not taken, a shift by 0 (R141, R170). -/
  | advanced : Effect i s s.advance
  /-- HLT (R223). -/
  | halted (hi : i = .hlt) : Effect i s s.halt.advance
  /-- A destination register and no flag (R80). -/
  | registerWritten (d : Reg) (v : Byte) (hd : destination i = some d.toByte) : Effect i s (s.setReg d v).advance
  /-- A destination register and the flags (R100). -/
  | resultWritten (d : Reg) (r : AluResult) (hd : destination i = some d.toByte) (hf : i.form ∈ flagWriters) :
      Effect i s ((s.setFlags r.flags).setReg d r.value).advance
  /-- The flags and no register (R130). -/
  | flagsWritten (fl : Flags) (hf : i.form ∈ flagWriters) : Effect i s (s.setFlags fl).advance
  /-- A byte of memory (R84, R85, R87, R88, R90). -/
  | stored (addr : Int) (v : Byte) (ha : inMemory addr = true) (hst : storeAddress i s = some addr.toNat) :
      Effect i s (s.store addr v).advance
  /-- A jump taken (R170). -/
  | jumped (target : Int) (hi : i.form ∈ transferVariants) (ht : -16 ≤ target ∧ target ≤ 270) :
      Effect i s (s.setPc target)
  /-- A push that goes on at `next` (R202 to R205, R207). -/
  | pushed (v : Byte) (hp : Pushes i s v) (hsp : 0x80 ≤ (s.sp - 1).toNat) : Effect i s (pushed v s).advance
  /-- A call (R215, R216). -/
  | called (v : Byte) (target : Int) (hp : Pushes i s v) (hsp : 0x80 ≤ (s.sp - 1).toNat)
      (hi : i.form ∈ transferVariants) (ht : -16 ≤ target ∧ target ≤ 270) :
      Effect i s ((Machine.pushed v s).setPc target)
  /-- A push or a call whose check of SP fails: the byte is stored and SP moved (R200, R232). -/
  | overflowed (v : Byte) (hp : Pushes i s v) (hsp : (s.sp - 1).toNat < 0x80) :
      Effect i s ((Machine.pushed v s).enterFault (.stackOverflow (s.sp - 1)))
  /-- POP (R206). -/
  | popped (d : Reg) (v : Byte) (hi : i.form ∈ stackVariants) (hd : destination i = some d.toByte)
      (hsp : (s.sp + 1).toNat ≤ 0xBF) : Effect i s ((s.setSp (s.sp + 1)).setReg d v).advance
  /-- POPF (R208). -/
  | flagsPopped (v : Byte) (hi : i.form ∈ stackVariants) (hf : i.form ∈ flagWriters)
      (hsp : (s.sp + 1).toNat ≤ 0xBF) : Effect i s ((s.setSp (s.sp + 1)).loadFlags v).advance
  /-- RET (R217). -/
  | returned (v : Byte) (hi : i.form ∈ stackVariants) (ht : i.form ∈ transferVariants)
      (hsp : (s.sp + 1).toNat ≤ 0xBF) : Effect i s ((s.setSp (s.sp + 1)).setPc v.toNat)
  /-- A pop whose check of SP fails: SP is moved (R201, R232). -/
  | underflowed (hi : i.form ∈ stackVariants) (hsp : 0xBF < (s.sp + 1).toNat) :
      Effect i s ((s.setSp (s.sp + 1)).enterFault (.stackUnderflow (s.sp + 1)))
  /-- An IN that a port answered (R220, R221). -/
  | received (p v : Byte) (inbox : List PortAnswer) (draws : Nat) (hi : i = .inp p) :
      Effect i s (({ s with events := .portIn p v :: s.events, inbox := inbox, draws := draws } : State).setReg
        .al v).advance
  /-- An IN that the keyboard holds (R221). -/
  | held (p : Byte) (hi : i = .inp p) : Effect i s s.hold
  /-- OUT (R222). -/
  | sent (p : Byte) (hi : i = .outp p) : Effect i s (s.portOut p (s.reg .al)).advance

/-- The answer is a next state, and one of those the instruction may leave. -/
def Answers (i : Instr) (s : State) (r : Result) : Prop := ∃ t, r = .next t ∧ Effect i s t

/-! ### What each shared operation answers, given what the rest of the instruction answers -/

section Operations

variable {i : Instr} {s : State}

theorem Effect.answers {t : State} (h : Effect i s t) : Answers i s (.next t) := ⟨t, rfl, h⟩

/-- A fault raised before anything was written. -/
theorem fault_answers {r : FaultReport} (hr : r.ofStack = false) : Answers i s (.next (s.enterFault r)) :=
  (Effect.faulted r hr).answers

theorem withReg_answers {b : RegByte} {k : Reg → Result} (hk : ∀ d : Reg, b = d.toByte → Answers i s (k d)) :
    Answers i s (withReg b s k) := by
  rcases withReg_cases b s k with ⟨d, hb, e⟩ | ⟨-, e⟩ <;> rw [e]
  · exact hk d hb
  · exact fault_answers rfl

theorem withRead_answers {addr : Int} {k : Byte → Result} (hk : Answers i s (k (s.load addr))) :
    Answers i s (withRead addr s k) := by
  rcases withRead_cases addr s k with ⟨-, e⟩ | ⟨-, e⟩ <;> rw [e]
  · exact hk
  · exact fault_answers rfl

/-- A store to memory that ends its instruction. -/
theorem withWrite_answers {addr : Int} {v : Byte} (hst : storeAddress i s = some addr.toNat) :
    Answers i s (withWrite addr v s fun s1 => .next s1.advance) := by
  rcases withWrite_cases addr v s fun s1 => .next s1.advance with ⟨ha, e⟩ | ⟨-, e⟩ <;> rw [e]
  · exact (Effect.stored addr v ha hst).answers
  · exact fault_answers rfl

theorem withPush_answers {v : Byte} {k : State → Result} (hp : Pushes i s v)
    (hk : 0x80 ≤ (s.sp - 1).toNat → Answers i s (k (pushed v s))) : Answers i s (withPush v s k) := by
  rcases withPush_cases v s k with ⟨hsp, e⟩ | ⟨hsp, e⟩ <;> rw [e]
  · exact hk hsp
  · exact (Effect.overflowed v hp hsp).answers

/-- A push that goes on at `next`. -/
theorem withPush_advance_answers {v : Byte} (hp : Pushes i s v) :
    Answers i s (withPush v s fun s1 => .next s1.advance) :=
  withPush_answers hp fun hsp => (Effect.pushed v hp hsp).answers

/-- The push of a call, which goes on at the target (R215, R216). -/
theorem withPush_setPc_answers {v : Byte} {target : Int} (hp : Pushes i s v) (hi : i.form ∈ transferVariants)
    (ht : -16 ≤ target ∧ target ≤ 270) : Answers i s (withPush v s fun s1 => .next (s1.setPc target)) :=
  withPush_answers hp fun hsp => (Effect.called v target hp hsp hi ht).answers

theorem withPop_answers {k : Byte → State → Result} (hi : i.form ∈ stackVariants)
    (hk : (s.sp + 1).toNat ≤ 0xBF → ∀ v, Answers i s (k v (s.setSp (s.sp + 1)))) : Answers i s (withPop s k) := by
  rcases withPop_cases s k with ⟨hsp, e⟩ | ⟨hsp, e⟩ <;> rw [e]
  · exact hk hsp _
  · exact (Effect.underflowed hi hsp).answers

theorem withImmediate_answers {b k : Byte} {body : Reg → Byte → Byte → Result}
    (h : ∀ d v w, b = d.toByte → Answers i s (body d v w)) : Answers i s (withImmediate b k s body) :=
  withReg_answers fun d hd => h d _ _ hd

theorem withRegister_answers {b r : Byte} {body : Reg → Byte → Byte → Result}
    (h : ∀ d v w, b = d.toByte → Answers i s (body d v w)) : Answers i s (withRegister b r s body) :=
  withReg_answers fun d hd => withReg_answers fun _ _ => h d _ _ hd

theorem withDirect_answers {b a : Byte} {body : Reg → Byte → Byte → Result}
    (h : ∀ d v w, b = d.toByte → Answers i s (body d v w)) : Answers i s (withDirect b a s body) :=
  withReg_answers fun d hd => withRead_answers (h d _ _ hd)

theorem withIndirect_answers {b : Byte} {x : Indirect} {body : Reg → Byte → Byte → Result}
    (h : ∀ d v w, b = d.toByte → Answers i s (body d v w)) : Answers i s (withIndirect b x s body) :=
  withReg_answers fun d hd => withRead_answers (h d _ _ hd)

theorem writeReg_answers {d : Reg} {v : Byte} (hd : destination i = some d.toByte) : Answers i s (writeReg d v s) :=
  (Effect.registerWritten d v hd).answers

theorem writeResult_answers {d : Reg} {r : AluResult} (hd : destination i = some d.toByte)
    (hf : i.form ∈ flagWriters) : Answers i s (writeResult d r s) :=
  (Effect.resultWritten d r hd hf).answers

theorem writeFlags_answers {r : AluResult} (hf : i.form ∈ flagWriters) : Answers i s (writeFlags r s) :=
  (Effect.flagsWritten r.flags hf).answers

theorem divideInto_answers {d : Reg} {a b : Byte} (hd : destination i = some d.toByte)
    (hf : i.form ∈ flagWriters) : Answers i s (divideInto d a b s) := by
  rcases divideInto_cases d a b s with ⟨-, e⟩ | ⟨-, e⟩ <;> rw [e]
  · exact writeResult_answers hd hf
  · exact fault_answers rfl

theorem shiftInto_answers {shift : Byte → Byte → AluResult} {d : Reg} {a b : Byte}
    (hd : destination i = some d.toByte) (hf : i.form ∈ flagWriters) : Answers i s (shiftInto shift d a b s) := by
  rcases shiftInto_cases shift d a b s with ⟨-, e⟩ | ⟨-, e⟩ <;> rw [e]
  · exact Effect.advanced.answers
  · exact writeResult_answers hd hf

theorem jumpIf_answers {taken : Bool} {target : Int} (hi : i.form ∈ transferVariants)
    (ht : -16 ≤ target ∧ target ≤ 270) : Answers i s (jumpIf taken target s) := by
  cases taken with
  | true => exact (Effect.jumped target hi ht).answers
  | false => exact Effect.advanced.answers

theorem execInp_answers (p : Byte) : Answers (.inp p) s (execInp p s) := by
  unfold execInp
  cases h : s.portIn p with
  | none => exact (Effect.held p rfl).answers
  | some found =>
    obtain ⟨v, s1⟩ := found
    obtain ⟨inbox, draws, rfl⟩ := portIn_frame h
    exact (Effect.received p v inbox draws rfl).answers

/-- A byte as a jump target is in the range of pc (R13, R54). -/
theorem byte_target_range (a : Byte) : -16 ≤ (a.toNat : Int) ∧ (a.toNat : Int) ≤ 270 := by
  have := a.isLt
  omega

end Operations

/-! ### Every instruction -/

/-- Every instruction answers a next state, and one that `Effect` lists for it. `of_decide_eq_true rfl` finds the
instruction's variant in the list of variants named by the goal. -/
theorem exec_answers (i : Instr) (s : State) : Answers i s (exec i s) := by
  unfold exec
  cases i with
  | hlt => exact ⟨_, rfl, .halted rfl⟩
  | movRR d r =>
    exact withReg_answers fun dst hd => withReg_answers fun _ _ => writeReg_answers (congrArg some hd)
  | movRI d k => exact withReg_answers fun dst hd => writeReg_answers (congrArg some hd)
  | movRA d a | movRX d x | movRS d o =>
    exact withReg_answers fun dst hd => withRead_answers (writeReg_answers (congrArg some hd))
  | movAR a r | movXR x r | movSR o r => exact withReg_answers fun _ _ => withWrite_answers rfl
  | movAI a k | movXI x k => exact withWrite_answers rfl
  | addI d k | subI d k | mulI d k | andI d k | orI d k | xorI d k =>
    exact withImmediate_answers fun _ _ _ hd => writeResult_answers (congrArg some hd) (of_decide_eq_true rfl)
  | addR d r | subR d r | mulR d r | andR d r | orR d r | xorR d r =>
    exact withRegister_answers fun _ _ _ hd => writeResult_answers (congrArg some hd) (of_decide_eq_true rfl)
  | addA d a | subA d a | mulA d a | andA d a | orA d a | xorA d a =>
    exact withDirect_answers fun _ _ _ hd => writeResult_answers (congrArg some hd) (of_decide_eq_true rfl)
  | addX d x | subX d x | mulX d x | andX d x | orX d x | xorX d x =>
    exact withIndirect_answers fun _ _ _ hd => writeResult_answers (congrArg some hd) (of_decide_eq_true rfl)
  | inc r | dec r | neg r | not r =>
    exact withReg_answers fun _ hd => writeResult_answers (congrArg some hd) (of_decide_eq_true rfl)
  | divI d k =>
    exact withImmediate_answers fun _ _ _ hd => divideInto_answers (congrArg some hd) (of_decide_eq_true rfl)
  | divR d r =>
    exact withRegister_answers fun _ _ _ hd => divideInto_answers (congrArg some hd) (of_decide_eq_true rfl)
  | divA d a =>
    exact withDirect_answers fun _ _ _ hd => divideInto_answers (congrArg some hd) (of_decide_eq_true rfl)
  | divX d x =>
    exact withIndirect_answers fun _ _ _ hd => divideInto_answers (congrArg some hd) (of_decide_eq_true rfl)
  | cmpI d k => exact withImmediate_answers fun _ _ _ _ => writeFlags_answers (of_decide_eq_true rfl)
  | cmpR d r => exact withRegister_answers fun _ _ _ _ => writeFlags_answers (of_decide_eq_true rfl)
  | cmpA d a => exact withDirect_answers fun _ _ _ _ => writeFlags_answers (of_decide_eq_true rfl)
  | cmpX d x => exact withIndirect_answers fun _ _ _ _ => writeFlags_answers (of_decide_eq_true rfl)
  | shlI d k | shrI d k =>
    exact withImmediate_answers fun _ _ _ hd => shiftInto_answers (congrArg some hd) (of_decide_eq_true rfl)
  | shlR d r | shrR d r =>
    exact withRegister_answers fun _ _ _ hd => shiftInto_answers (congrArg some hd) (of_decide_eq_true rfl)
  | shlA d a | shrA d a =>
    exact withDirect_answers fun _ _ _ hd => shiftInto_answers (congrArg some hd) (of_decide_eq_true rfl)
  | shlX d x | shrX d x =>
    exact withIndirect_answers fun _ _ _ hd => shiftInto_answers (congrArg some hd) (of_decide_eq_true rfl)
  | jmpA a | jcA a | jncA a | jzA a | jnzA a | joA a | jnoA a | jsA a | jnsA a =>
    exact jumpIf_answers (of_decide_eq_true rfl) (byte_target_range a)
  | jmpX x | jcX x | jncX x | jzX x | jnzX x | joX x | jnoX x | jsX x | jnsX x =>
    exact jumpIf_answers (of_decide_eq_true rfl) (eaInd_range s x)
  | pushI k => exact withPush_advance_answers ⟨of_decide_eq_true rfl, rfl, rfl⟩
  | pushR r =>
    exact withReg_answers fun src hr =>
      withPush_advance_answers ⟨of_decide_eq_true rfl, rfl, by simp [pushedByte, hr]⟩
  | pushA a | pushX x =>
    exact withRead_answers (withPush_advance_answers ⟨of_decide_eq_true rfl, rfl, rfl⟩)
  | pushf => exact withPush_advance_answers ⟨of_decide_eq_true rfl, rfl, rfl⟩
  | pop r =>
    exact withReg_answers fun dst hd => withPop_answers (of_decide_eq_true rfl) fun hsp v =>
      ⟨_, rfl, .popped dst v (of_decide_eq_true rfl) (congrArg some hd) hsp⟩
  | popf =>
    exact withPop_answers (of_decide_eq_true rfl) fun hsp v =>
      ⟨_, rfl, .flagsPopped v (of_decide_eq_true rfl) (of_decide_eq_true rfl) hsp⟩
  | callA a =>
    exact withPush_setPc_answers ⟨of_decide_eq_true rfl, rfl, rfl⟩ (of_decide_eq_true rfl) (byte_target_range a)
  | callX x =>
    unfold execCallX
    exact withPush_setPc_answers ⟨of_decide_eq_true rfl, rfl, rfl⟩ (of_decide_eq_true rfl) (eaInd_range s x)
  | ret =>
    exact withPop_answers (of_decide_eq_true rfl) fun hsp v =>
      ⟨_, rfl, .returned v (of_decide_eq_true rfl) (of_decide_eq_true rfl) hsp⟩
  | inp p => exact execInp_answers p
  | outp p => exact ⟨_, rfl, .sent p rfl⟩

/-- The state an instruction ends in is one that `Effect` lists for it. -/
theorem exec_effect {i : Instr} {s t : State} (h : exec i s = .next t) : Effect i s t := by
  obtain ⟨u, hu, heff⟩ := exec_answers i s
  cases hu.symm.trans h
  exact heff

end Sys2Proof.Machine
end

section
/-! PROOF. The frames of every instruction, each read off the list of its effects (R12, R14, R15, R17, R21, R37). -/

namespace Sys2Proof.Machine

open Sys2Proof.Claims

section Frames

variable {i : Instr} {s t : State}

/-- A state's RS and F after an instruction (R15, R17, R231). -/
theorem Effect.runState (h : Effect i s t) :
    SameRunState s t ∨ (i = .hlt ∧ t.rs = .halted ∧ t.f = s.f) ∨ (∃ r, t.rs = .faulted r ∧ t.f = true) := by
  cases h with
  | faulted | overflowed | underflowed => exact .inr (.inr ⟨_, rfl, rfl⟩)
  | halted hi => exact .inr (.inl ⟨hi, rfl, rfl⟩)
  | _ => exact .inl ⟨by simp, by simp⟩

/-- SP stays for every instruction outside R21's list (R12). -/
theorem Effect.sp (h : Effect i s t) (hi : i.form ∉ stackVariants) : t.sp = s.sp := by
  cases h with
  | pushed _ hp | called _ _ hp | overflowed _ hp => exact absurd hp.form hi
  | popped _ _ hs | flagsPopped _ hs | returned _ hs | underflowed hs => exact absurd hs hi
  | _ => simp

/-- The flags stay for every instruction outside R21's list (R14). -/
theorem Effect.flags (h : Effect i s t) (hi : i.form ∉ flagWriters) : t.flags = s.flags := by
  cases h with
  | resultWritten _ _ _ hf | flagsWritten _ hf | flagsPopped _ _ hf => exact absurd hf hi
  | _ => simp

theorem ne_of_destination {d q : Reg} (hd : destination i = some d.toByte) (hq : destination i ≠ some q.toByte) :
    q ≠ d := fun e => hq (e ▸ hd)

/-- Every general register but the destination stays (R21). -/
theorem Effect.reg (h : Effect i s t) {q : Reg} (hq : destination i ≠ some q.toByte) : t.reg q = s.reg q := by
  cases h with
  | registerWritten _ _ hd | resultWritten _ _ hd | popped _ _ _ hd => simp [ne_of_destination hd hq]
  | received p v _ _ hi =>
    subst hi
    have hne : q ≠ .al := ne_of_destination rfl hq
    simp [hne]
  | _ => simp

theorem ne_of_storeAddress {addr a : Nat} (hst : storeAddress i s = some addr) (ha : storeAddress i s ≠ some a) :
    a ≠ addr := fun e => ha (e ▸ hst)

/-- Every byte of memory but the one at the address stored to stays (R21, R37). -/
theorem Effect.byteAt (h : Effect i s t) {a : Nat} (ha : storeAddress i s ≠ some a) :
    byteAt t a = byteAt s a := by
  unfold Claims.byteAt
  cases h with
  | stored addr v _ hst => simp [Memory.read_write, ne_of_storeAddress hst ha]
  | pushed v hp | called v _ hp | overflowed v hp => simp [Memory.read_write, ne_of_storeAddress hp.address ha]
  | _ => simp

/-- The memory stays in its canonical form (R18, R30; log 24). -/
theorem Effect.mem_wf (h : Effect i s t) (hwf : s.mem.wf) : t.mem.wf := by
  cases h with
  | stored addr v ha => exact State.store_mem_wf hwf ha v
  | pushed v | called v | overflowed v => exact mem_wf_pushed hwf v
  | _ => simpa using hwf

/-- From a pc in the memory space, pc stays in its range: `next` is at most 256, the pc of a held IN at least -1, and a
target is an effective address or a byte (R13, R22, R53). -/
theorem Effect.pc_range (h : Effect i s t) (hpc : inMemory s.pc = true) : -16 ≤ t.pc ∧ t.pc ≤ 270 := by
  obtain ⟨hlo, hhi⟩ := inMemory_iff.1 hpc
  cases h with
  | jumped target _ ht | called _ target _ _ _ ht => exact ht
  | returned v => exact byte_target_range v
  | _ => simp; omega

/-- An instruction that neither transfers control nor faults leaves pc at `next` (R13, R62). -/
theorem Effect.pc (h : Effect i s t) (hi : i.form ∉ transferVariants) (hrs : ∀ r, t.rs ≠ .faulted r) :
    t.pc = s.pc + 1 := by
  cases h with
  | faulted | overflowed | underflowed => exact absurd rfl (hrs _)
  | jumped _ ht | called _ _ _ _ ht | returned _ _ ht => exact absurd ht hi
  | received _ _ _ _ hp | held _ hp => subst hp; exact absurd (of_decide_eq_true rfl) hi
  | _ => simp

/-- The legal range of SP (R12, R22). -/
def State.spLegal (s : State) : Prop := 0x80 ≤ s.sp.toNat ∧ s.sp.toNat ≤ 0xBF

/-- SP stays legal, or the core is Faulted with SP at most one below or above (R12, R22, R200, R201). -/
theorem Effect.spLegal_or_faulted (h : Effect i s t) (hsp : s.spLegal) :
    t.spLegal ∨ ∃ r, t.rs = .faulted r ∧ 0x7F ≤ t.sp.toNat ∧ t.sp.toNat ≤ 0xC0 := by
  obtain ⟨hlo, hhi⟩ := hsp
  have hpred : (s.sp - 1).toNat = s.sp.toNat - 1 := by bv_omega
  have hsucc : (s.sp + 1).toNat = s.sp.toNat + 1 := by bv_omega
  cases h with
  | faulted => exact .inl ⟨hlo, hhi⟩
  | pushed _ _ hle | called _ _ _ hle => exact .inl ⟨by simpa using hle, by simp; omega⟩
  | popped _ _ _ _ hle | flagsPopped _ _ _ hle | returned _ _ _ hle =>
    exact .inl ⟨by simp; omega, by simpa using hle⟩
  | overflowed => exact .inr ⟨_, rfl, by simp; omega, by simp; omega⟩
  | underflowed => exact .inr ⟨_, rfl, by simp; omega, by simp; omega⟩
  | _ => exact .inl ⟨by simpa using hlo, by simpa using hhi⟩

end Frames

end Sys2Proof.Machine
end

section
/-! PROOF. What one step can leave, said once: `StepEffect s t` lists the re-raise, the faults of the fetch and the run
of the instruction whose opcode stands at pc (R62, R233, R235). -/

namespace Sys2Proof.Machine

open Sys2Proof.Claims

/-! ### Opcode, variant and length -/

/-- The instruction a variant builds has that variant (R51). -/
@[simp] theorem form_build (f : Form) (b1 b2 : Byte) : (f.build b1 b2).form = f := by cases f <;> rfl

/-- A variant is selected by its own opcode byte only (R58). -/
theorem eq_opcode_of_formOfOpcode {op : Byte} {f : Form} (h : formOfOpcode op = some f) : op = f.opcode := by
  obtain ⟨hlt, rfl⟩ := List.getElem?_eq_some_iff.1 h
  unfold Form.opcode
  rw [params_opmap_nodup.idxOf_getElem op.toNat hlt, BitVec.ofNat_toNat, BitVec.setWidth_eq]

/-- The first byte of bytes that decode selects the variant of the instruction they decode to (R59). -/
theorem formOfOpcode_of_decode {op : Byte} {rest left : List Byte} {i : Instr}
    (h : decode (op :: rest) = .ok (i, left)) : formOfOpcode op = some i.form := by
  unfold decode at h
  cases hf : formOfOpcode op with
  | none => simp [hf] at h
  | some f =>
    simp only [hf] at h
    split at h <;> cases h <;> rw [form_build]

/-- The bytes at an address in memory begin with the byte there. -/
theorem bytesAt_eq_cons {s : State} {addr : Int} (h : inMemory addr = true) :
    ∃ rest, s.bytesAt addr = s.load addr :: rest := by
  simp [State.bytesAt, h]

/-! ### What a step can leave -/

/-- The states in which a step may end. -/
inductive StepEffect (s : State) : State → Prop where
  /-- A Faulted core delivers its report again (R233). -/
  | reraised (r : FaultReport) (hrs : s.rs = .faulted r) : StepEffect s (s.emit (.faultRaised r))
  /-- pc is outside the memory space (R62). -/
  | pcOutOfBounds (hrs : s.rs = .ready) (hpc : inMemory s.pc = false) :
      StepEffect s (s.enterFault (.instructionPointerOutOfBounds s.pc))
  /-- The byte at pc is no opcode (R60). -/
  | invalidOpcode (hrs : s.rs = .ready) (hpc : inMemory s.pc = true) (hop : formOfOpcode (s.load s.pc) = none) :
      StepEffect s (s.enterFault (.invalidOpcode (s.load s.pc)))
  /-- An operand byte would stand beyond the last address, at 256 (R62, R232). -/
  | operandOutOfBounds (hrs : s.rs = .ready) (hpc : inMemory s.pc = true) :
      StepEffect s ((s.setPc 256).enterFault (.addressOutOfBounds 256))
  /-- The instruction at pc ran, from the state in which pc is at its last byte (R62; log 28). -/
  | ran (i : Instr) {t : State} (hrs : s.rs = .ready) (hpc : inMemory s.pc = true)
      (hop : formOfOpcode (s.load s.pc) = some i.form) (hlast : inMemory (s.pc + i.form.nops) = true)
      (heff : Effect i (s.setPc (s.pc + i.form.nops)) t) : StepEffect s t

@[simp] theorem State.setPc_setPc (s : State) (p q : Int) : (s.setPc p).setPc q = s.setPc q := rfl

/-- The address after one in memory is in memory or is 256 (R31). -/
theorem succ_eq_of_not_inMemory {addr : Int} (h : inMemory addr = true) (hs : inMemory (addr + 1) = false) :
    addr + 1 = 256 := by
  have hin := inMemory_iff.1 h
  have hout : ¬(0 ≤ addr + 1 ∧ addr + 1 < 256) := by rw [← inMemory_iff, hs]; exact Bool.false_ne_true
  omega

/-- An operand fetch from an address in memory hands on the next address, in memory too, or faults at 256 (R62). -/
theorem fetchByte_next {s t : State} {p : Int} {k : Byte → State → Result} (hp : inMemory p = true)
    (h : fetchByte (s.setPc p) k = .next t) :
    (inMemory (p + 1) = true ∧ k (s.load (p + 1)) (s.setPc (p + 1)) = .next t) ∨
      t = (s.setPc 256).enterFault (.addressOutOfBounds 256) := by
  rcases fetchByte_cases (s.setPc p) k with ⟨hin, e⟩ | ⟨hout, e⟩
  · exact .inl ⟨hin, e.symm.trans h⟩
  · right
    have hend : p + 1 = 256 := succ_eq_of_not_inMemory hp hout
    cases e.symm.trans h
    simp [hend]

/-- The run of an instruction built from the variant at pc, from the state in which its last byte was fetched. -/
theorem StepEffect.of_exec {s t : State} {f : Form} {b1 b2 : Byte} {p : Int} (hrs : s.rs = .ready)
    (hpc : inMemory s.pc = true) (hop : formOfOpcode (s.load s.pc) = some f) (hp : p = s.pc + f.nops)
    (hlast : inMemory p = true) (hx : exec (f.build b1 b2) (s.setPc p) = .next t) : StepEffect s t := by
  subst hp
  refine .ran (f.build b1 b2) hrs hpc ?_ ?_ ?_ <;> rw [form_build]
  exacts [hop, hlast, exec_effect hx]

/-- The fetch of a Ready core ends in one of its faults or in the run of the instruction at pc (R62, R235). -/
theorem fetch_effect {s t : State} (hrs : s.rs = .ready) (h : fetch s exec = .next t) : StepEffect s t := by
  unfold fetch at h
  cases hpc : inMemory s.pc with
  | false =>
    simp only [hpc, Bool.false_eq_true, if_false] at h
    cases h
    exact .pcOutOfBounds hrs hpc
  | true =>
    simp only [hpc, if_true] at h
    cases hop : formOfOpcode (s.load s.pc) with
    | none =>
      simp only [hop] at h
      cases h
      exact .invalidOpcode hrs hpc hop
    | some f =>
      simp only [hop] at h
      have ran {b1 b2 : Byte} {p : Int} := StepEffect.of_exec (b1 := b1) (b2 := b2) (p := p) (t := t) hrs hpc hop
      rcases nops_cases f with hn | hn | hn <;> simp only [hn] at h
      · exact ran (by simp [hn]) hpc h
      · rcases fetchByte_next (s := s) hpc h with ⟨hin, hx⟩ | rfl
        · exact ran (by simp [hn]) hin hx
        · exact .operandOutOfBounds hrs hpc
      · rcases fetchByte_next (s := s) hpc h with ⟨hin, hx⟩ | rfl
        · rcases fetchByte_next hin hx with ⟨hin2, hx2⟩ | rfl
          · exact ran (by rw [hn]; omega) hin2 hx2
          · exact .operandOutOfBounds hrs hpc
        · exact .operandOutOfBounds hrs hpc

/-- The state a step ends in is one that `StepEffect` lists. -/
theorem step_effect {s t : State} (h : step s = .next t) : StepEffect s t := by
  unfold step at h
  cases hrs : s.rs with
  | ready =>
    simp only [hrs] at h
    exact fetch_effect hrs h
  | halted => simp [hrs] at h
  | faulted r =>
    simp only [hrs] at h
    cases h
    exact .reraised r hrs

/-! ### Pieces of the invariant -/

/-- Outside Faulted the range of SP is the legal one (R12, R22). -/
theorem State.inRange_iff_of_ready {s : State} (hrs : s.rs = .ready) :
    s.inRange ↔ (-16 ≤ s.pc ∧ s.pc ≤ 270) ∧ s.spLegal := by
  simp only [State.inRange, hrs, State.spLegal]

theorem State.inRange_iff_of_faulted {s : State} {r : FaultReport} (hrs : s.rs = .faulted r) :
    s.inRange ↔ (-16 ≤ s.pc ∧ s.pc ≤ 270) ∧ 0x7F ≤ s.sp.toNat ∧ s.sp.toNat ≤ 0xC0 := by
  simp only [State.inRange, hrs]

/-- A legal SP is in range in every run state (R12, R22). -/
theorem State.inRange_of_spLegal {s : State} (hpc : -16 ≤ s.pc ∧ s.pc ≤ 270) (hsp : s.spLegal) : s.inRange := by
  obtain ⟨hlo, hhi⟩ := hsp
  refine ⟨hpc, ?_⟩
  cases s.rs with
  | ready | halted => exact ⟨hlo, hhi⟩
  | faulted r => exact ⟨by omega, by omega⟩

theorem State.faultFlagAgrees_of_faulted {s : State} {r : FaultReport} (hf : s.f = true) (hrs : s.rs = .faulted r) :
    s.faultFlagAgrees :=
  ⟨fun _ => ⟨r, hrs⟩, fun _ => hf⟩

/-- Outside Faulted the Fault flag agrees when it is 0 (R15). -/
theorem State.faultFlagAgrees_iff_of_not_faulted {s : State} (hrs : ∀ r, s.rs ≠ .faulted r) :
    s.faultFlagAgrees ↔ s.f = false := by
  have hnone : ¬∃ r, s.rs = .faulted r := fun ⟨r, hr⟩ => hrs r hr
  simp [State.faultFlagAgrees, hnone]

end Sys2Proof.Machine
end

section
/-! PROOF. The obligations of the family of the state: the invariants of every step, the frames over the whole
instruction set, the reset and the status byte (R12 to R24, R260). -/

namespace Sys2Proof.Proofs.StateFamily

open Sys2Proof.Machine Sys2Proof.Claims

/-! ### Invariants of every step -/

/-- Settles O14, over the effects of a step: only a store and a push write memory, each at an address in it. -/
theorem stepKeepsMemoryCanonical : Obligations.StepKeepsMemoryCanonical := by
  intro s t hwf hstep
  cases step_effect hstep with
  | ran i _ _ _ _ heff => exact heff.mem_wf hwf
  | _ => exact hwf

/-- Settles O15, over the effects of a step: the fetch leaves pc in the memory space or at 256, and an instruction
leaves SP legal or, with a failed check, one outside (R12, R13, R22). -/
theorem stepKeepsRanges : Obligations.StepKeepsRanges := by
  intro s t hin hstep
  cases step_effect hstep with
  | reraised r hrs => exact hin
  | pcOutOfBounds hrs | invalidOpcode hrs =>
    obtain ⟨hpc, hsp⟩ := (State.inRange_iff_of_ready hrs).1 hin
    exact State.inRange_of_spLegal hpc hsp
  | operandOutOfBounds hrs =>
    obtain ⟨-, hsp⟩ := (State.inRange_iff_of_ready hrs).1 hin
    exact State.inRange_of_spLegal (by simp) hsp
  | ran i hrs _ _ hlast heff =>
    obtain ⟨-, hsp⟩ := (State.inRange_iff_of_ready hrs).1 hin
    have hpc := heff.pc_range hlast
    rcases heff.spLegal_or_faulted hsp with hlegal | ⟨r, hr, hwide⟩
    · exact State.inRange_of_spLegal hpc hlegal
    · exact (State.inRange_iff_of_faulted hr).2 ⟨hpc, hwide⟩

/-- Settles O16: a fault sets F with RS, HLT and every other instruction leave F at the 0 it has in a Ready core. -/
theorem stepKeepsFaultFlag : Obligations.StepKeepsFaultFlag := by
  intro s t hagree hstep
  cases step_effect hstep with
  | reraised r hrs => exact hagree
  | pcOutOfBounds | invalidOpcode | operandOutOfBounds => exact State.faultFlagAgrees_of_faulted rfl rfl
  | ran i hrs _ _ _ heff =>
    have hf : s.f = false := (State.faultFlagAgrees_iff_of_not_faulted (by simp [hrs])).1 hagree
    rcases heff.runState with ⟨hf', hrs'⟩ | ⟨-, hrs', hf'⟩ | ⟨r, hrs', hf'⟩
    · exact (State.faultFlagAgrees_iff_of_not_faulted (by simp [hrs', hrs])).2 (hf'.trans hf)
    · exact (State.faultFlagAgrees_iff_of_not_faulted (by simp [hrs'])).2 (hf'.trans hf)
    · exact State.faultFlagAgrees_of_faulted hf' hrs'

/-- Settles O17, by the values of the reset state. -/
theorem resetMeetsInvariant : Obligations.ResetMeetsInvariant :=
  ⟨State.reset_mem_wf, State.inRange_of_spLegal (by decide) (by unfold State.spLegal; decide),
    (State.faultFlagAgrees_iff_of_not_faulted fun _ h => RunState.noConfusion h).2 rfl⟩

/-! ### What no instruction does -/

/-- Settles O18, over the effects of an instruction. -/
theorem runStateTransitions : Obligations.RunStateTransitions := fun _ _ _ h => (exec_effect h).runState

/-- Settles O19: of the effects of a step only the run of HLT ends Halted, and its variant has one opcode byte. -/
theorem onlyHltHalts : Obligations.OnlyHltHalts := by
  intro s t hstep hhalt
  cases step_effect hstep with
  | reraised r hrs => exact absurd (hrs.symm.trans hhalt) nofun
  | pcOutOfBounds | invalidOpcode | operandOutOfBounds => cases hhalt
  | ran i hrs hpc hop _ heff =>
    rcases heff.runState with ⟨-, hrs'⟩ | ⟨rfl, -, -⟩ | ⟨r, hrs', -⟩
    · exact absurd (hrs.symm.trans (hrs'.symm.trans hhalt)) nofun
    · obtain ⟨hlo, hhi⟩ := inMemory_iff.1 hpc
      exact ⟨hrs, ⟨hlo, by omega⟩, eq_opcode_of_formOfOpcode hop⟩
    · exact absurd (hrs'.symm.trans hhalt) nofun

/-- Settles O20, over the effects of an instruction. -/
theorem onlyStackInstructionsMoveSp : Obligations.OnlyStackInstructionsMoveSp :=
  fun _ _ _ h hi => (exec_effect h).sp hi

/-- Settles O21, over the effects of an instruction. -/
theorem onlyFlagWritersWriteFlags : Obligations.OnlyFlagWritersWriteFlags :=
  fun _ _ _ h hi => (exec_effect h).flags hi

/-- Settles O22, over the effects of an instruction. -/
theorem onlyDestinationWritten : Obligations.OnlyDestinationWritten := fun _ _ _ h _ hq => (exec_effect h).reg hq

/-- Settles O23, over the effects of an instruction. -/
theorem onlyStoreAddressWritten : Obligations.OnlyStoreAddressWritten := fun _ _ _ h _ ha => (exec_effect h).byteAt ha

/-! ### pc after an instruction -/

/-- Settles O10: the opcode byte at pc fixes the variant of the instruction decoded and of the one run, so both have one
length, and `next` is that many bytes on (R59, R62). -/
theorem pcAfterInstruction : Obligations.PcAfterInstruction := by
  intro s t i rest hrs hspace hdecode htransfer hstep hnofault
  have hpc : inMemory s.pc = true := inMemory_iff.2 ⟨hspace.1, by have := hspace.2; omega⟩
  obtain ⟨operands, hbytes⟩ := bytesAt_eq_cons (s := s) hpc
  have hform : formOfOpcode (s.load s.pc) = some i.form := formOfOpcode_of_decode (hbytes ▸ hdecode)
  cases step_effect hstep with
  | reraised r hfaulted => exact absurd hfaulted (hnofault r)
  | pcOutOfBounds | invalidOpcode | operandOutOfBounds => exact absurd rfl (hnofault _)
  | ran j _ _ hop _ heff =>
    have hsame : j.form = i.form := Option.some.inj (hop.symm.trans hform)
    rw [heff.pc (hsame ▸ htransfer) hnofault, State.pc_setPc, hsame, Instr.length]
    omega

/-! ### Reset and the status byte -/

/-- Settles O1, element by element. -/
theorem resetValues : Obligations.ResetValues := by
  intro s
  refine ⟨fun q => by cases q <;> rfl, rfl, rfl, rfl, rfl, rfl, rfl, fun _ => rfl, fun a ha => ?_, fun a hlo hhi => ?_,
    fun q => by cases q <;> rfl, rfl, rfl, rfl, rfl, rfl, rfl⟩
  · exact if_neg (by simp; omega)
  · exact if_pos (by simp; omega)

/-- Settles O34: the layout is a fact about the five flags that make the byte, checked at each of their values. -/
theorem statusByteLayout : Obligations.StatusByteLayout := by
  intro s
  unfold State.sr
  generalize s.f = f
  generalize s.flags.c = c
  generalize s.flags.o = o
  generalize s.flags.z = z
  generalize s.flags.s = n
  revert f c o z n
  decide

end Sys2Proof.Proofs.StateFamily
end

section
/-! PROOF. The rules of the memory and of register bytes stated with the words of the obligations: bounds, the byte at
an address, the state that a fault leaves (R31, R32, R52, R231), and the memory after a program load (R44). -/

namespace Sys2Proof.Machine

open Sys2Proof.Claims

/-! ### Bounds and the fault they raise -/

/-- The bounds check is that the address is 0 to 255 (R31). -/
theorem inMemory_iff_inSpace {addr : Int} : inMemory addr = true ↔ InSpace addr := by
  rw [inMemory_iff, InSpace]
  omega

/-- Taking a fault changes F, RS and the events only (R231). -/
theorem takeFault_eq (r : FaultReport) (s : State) : takeFault r s = .next (faultState r s) := rfl

/-- `MemRead` outside the memory space (R31). -/
theorem withRead_of_not_inSpace {addr : Int} (h : ¬InSpace addr) (s : State) (k : Byte → Result) :
    withRead addr s k = .next (faultState (.addressOutOfBounds addr) s) := by
  rcases withRead_cases addr s k with ⟨hin, -⟩ | ⟨-, e⟩
  · exact absurd (inMemory_iff_inSpace.1 hin) h
  · exact e

/-- `MemWrite` outside the memory space (R32). -/
theorem withWrite_of_not_inSpace {addr : Int} (h : ¬InSpace addr) (v : Byte) (s : State) (k : State → Result) :
    withWrite addr v s k = .next (faultState (.addressOutOfBounds addr) s) := by
  rcases withWrite_cases addr v s k with ⟨hin, -⟩ | ⟨-, e⟩
  · exact absurd (inMemory_iff_inSpace.1 hin) h
  · exact e

/-! ### The byte at an address after a store -/

/-- After a store the written address reads as the written byte, every other one as before (R32, R39). -/
@[simp] theorem byteAt_store (s : State) (addr : Int) (v : Byte) (a : Nat) :
    byteAt (s.store addr v) a = if a = addr.toNat then v else byteAt s a := by
  unfold byteAt
  rw [State.mem_store, Memory.read_write]

/-! ### Valid register bytes -/

/-- A Register byte of a well-formed instruction is 0 to 3 (R52). -/
theorem toNat_lt_of_wellFormed {i : Instr} {b : RegByte} (hwf : WellFormed i = true) (hb : b ∈ i.regBytes) :
    b.toNat < 4 :=
  of_decide_eq_true (List.all_eq_true.1 hwf b hb)

/-- With a valid register byte, an answer that the rest gives for every register is the answer (R52). -/
theorem withReg_eq_of_forall {b : RegByte} (hb : b.toNat < 4) {s : State} {k : Reg → Result} {r : Result}
    (hk : ∀ d, k d = r) : withReg b s k = r := by
  rcases withReg_cases b s k with ⟨d, -, e⟩ | ⟨hge, -⟩
  · exact e.trans (hk d)
  · omega

/-- A second operand at a RegisterIndirect address outside the memory space (R31, R53, R100). -/
theorem withIndirect_of_not_inSpace {b : RegByte} {x : Indirect} {s : State} (hb : b.toNat < 4)
    (h : ¬InSpace (s.eaInd x)) (body : Reg → Byte → Byte → Result) :
    withIndirect b x s body = .next (faultState (.addressOutOfBounds (s.eaInd x)) s) :=
  withReg_eq_of_forall hb fun _ => withRead_of_not_inSpace h s _

/-! ### The program load -/

theorem loadProgram_of_long {bytes : List Byte} (h : 192 < bytes.length) (s : State) : s.loadProgram bytes = none :=
  if_neg (by rw [params_progMax]; omega)

theorem loadProgram_of_fits {bytes : List Byte} (h : bytes.length ≤ 192) (s : State) :
    s.loadProgram bytes = some { s with mem := s.mem.clearProgram.writeBytes 0 bytes } :=
  if_pos h

/-- The memory after a program load: the program, then 0 to the end of the program region, then as before (R44). -/
theorem read_loadedProgram (m : Memory) {bytes : List Byte} (h : bytes.length ≤ 192) (a : Nat) :
    (m.clearProgram.writeBytes 0 bytes).read a =
      if ha : a < bytes.length then bytes[a] else if a < 0xC0 then 0x00 else m.read a := by
  rw [Memory.read_writeBytes _ _ _ _ (by omega), Memory.read_clearProgram]
  simp

end Sys2Proof.Machine
end

section
/-! PROOF. The events and inputs of one instruction, read off the list of its effects (R32, R220, R231, R273). -/

namespace Sys2Proof.Machine

open Sys2Proof.Claims

/-! ### At most one interface event -/

/-- From `s` to `t` the history grew by at most one event, and by none that reports a fault. -/
def EmitsInterface (s t : State) : Prop :=
  ∃ io : List Event, t.events = io ++ s.events ∧ io.length ≤ 1 ∧ ∀ e ∈ io, ∀ r, e ≠ .faultRaised r

theorem EmitsInterface.of_same {s t : State} (h : t.events = s.events) : EmitsInterface s t := ⟨[], by simp [h]⟩

theorem EmitsInterface.of_one {s t : State} (e : Event) (h : t.events = e :: s.events)
    (he : ∀ r, e ≠ .faultRaised r) : EmitsInterface s t := ⟨[e], by simp [h, he]⟩

/-- A store emits a `Display` event or nothing (R32). -/
theorem EmitsInterface.store (s : State) (addr : Int) (v : Byte) : EmitsInterface s (s.store addr v) := by
  have h := State.events_store s addr v
  split at h
  · exact .of_one _ h nofun
  · exact .of_same h

/-- A push emits what its store does (R200, R32). -/
theorem EmitsInterface.pushed (s : State) (v : Byte) : EmitsInterface s (Machine.pushed v s) :=
  EmitsInterface.store s s.sp.toNat v

section Events

variable {i : Instr} {s t : State}

/-- An instruction emits at most one interface event and, when it faults, the report after it (R231, R273). -/
theorem Effect.events (h : Effect i s t) :
    EmitsInterface s t ∨ ∃ u r, EmitsInterface s u ∧ t = u.enterFault r := by
  cases h with
  | faulted r => exact .inr ⟨s, r, .of_same rfl, rfl⟩
  | overflowed v => exact .inr ⟨_, _, .pushed s v, rfl⟩
  | underflowed => exact .inr ⟨_, _, .of_same (State.events_setSp ..), rfl⟩
  | stored addr v => exact .inl (EmitsInterface.store s addr v)
  | pushed v | called v => exact .inl (EmitsInterface.pushed s v)
  | received p v => exact .inl (.of_one (.portIn p v) (by simp) nofun)
  | sent p => exact .inl (.of_one (.portOut p (s.reg .al)) (by simp) nofun)
  | _ => exact .inl (.of_same (by simp))

/-- No instruction but IN takes an input or draws a free answer (R220). -/
theorem Effect.sameInputs (h : Effect i s t) (hi : ∀ p, i ≠ .inp p) : SameInputs s t := by
  cases h with
  | received p _ _ _ hp => exact absurd hp (hi p)
  | _ => exact ⟨by simp, by simp⟩

end Events

end Sys2Proof.Machine
end

section
/-! PROOF. The obligations of the family of memory: the bounds and effects of an access, addresses outside the memory
space, the events of an instruction, the program load (R31 to R33, R44, R273). -/

namespace Sys2Proof.Proofs.MemoryFamily

open Sys2Proof.Machine Sys2Proof.Claims

/-! ### One access -/

/-- Settles O29: the bounds check decides, and in bounds the rest of the instruction takes the state it had. -/
theorem memReadRule : Obligations.MemReadRule := by
  intro addr s
  constructor
  · intro hout k
    have hspace : ¬InSpace addr := by rw [InSpace]; omega
    rw [withRead_of_not_inSpace hspace, takeFault_eq]
  · intro hin k
    exact withRead_of_in (inMemory_iff_inSpace.2 hin) s _

/-- Settles O30: out of bounds nothing but the fault happens, in bounds the rest goes on from the store. -/
theorem memWriteRule : Obligations.MemWriteRule := by
  intro addr v s k
  refine ⟨fun hout => withWrite_of_not_inSpace hout v s k, fun hin => ?_⟩
  refine ⟨s.store addr v, withWrite_of_in (inMemory_iff_inSpace.2 hin) v s k, ?_, ?_, ?_, ?_, ?_⟩
  · simp
  · intro a ha
    simp [ha]
  · exact State.events_store s addr v
  · exact State.reg_store s addr v
  · simp [SameRunState, SameInputs]

/-! ### Every instruction -/

/-- Settles O27, by the operand form of each instruction that has a computed data address: its register bytes are
validated and pass, and its access of memory is the first thing that can fail (R235). -/
theorem dataAddressOutOfBoundsFaults : Obligations.DataAddressOutOfBoundsFaults := by
  intro i s ea hwf hea hout
  have hreg {b : RegByte} (hb : b ∈ i.regBytes) : b.toNat < 4 := toNat_lt_of_wellFormed hwf hb
  unfold exec
  cases i with
  | movRX d x | movRS d o =>
    cases hea
    exact withReg_eq_of_forall (hreg List.mem_cons_self) fun _ => withRead_of_not_inSpace hout s _
  | movXR x r | movSR o r =>
    cases hea
    exact withReg_eq_of_forall (hreg List.mem_cons_self) fun _ => withWrite_of_not_inSpace hout _ s _
  | movXI x k =>
    cases hea
    exact withWrite_of_not_inSpace hout k s _
  | addX d x | subX d x | mulX d x | divX d x | cmpX d x | andX d x | orX d x | xorX d x | shlX d x | shrX d x =>
    cases hea
    exact withIndirect_of_not_inSpace (hreg List.mem_cons_self) hout _
  | pushX x =>
    cases hea
    exact withRead_of_not_inSpace hout s _
  | _ => cases hea

/-- Settles O24, over the effects of an instruction: a report, where there is one, stands before the interface event in
the history, which is newest first. -/
theorem eventsPerStep : Obligations.EventsPerStep := by
  intro i s t hexec
  have heff := exec_effect hexec
  refine ⟨?_, heff.sameInputs⟩
  rcases heff.events with ⟨io, hio, hone, hkind⟩ | ⟨u, r, ⟨io, hio, hone, hkind⟩, rfl⟩
  · exact ⟨[], io, by simpa using hio, by simp, hone, by simp, hkind⟩
  · exact ⟨[.faultRaised r], io, by simp [hio], by simp, hone, by simp, hkind⟩

/-! ### The program load -/

/-- Settles O3, by the memory after a load read in each of its three parts. -/
theorem loadProgramFillsProgramRegion : Obligations.LoadProgramFillsProgramRegion := by
  intro s bytes
  refine ⟨fun hlong => loadProgram_of_long hlong s, fun hfits => ⟨_, loadProgram_of_fits hfits s, ?_⟩⟩
  have hread := read_loadedProgram s.mem hfits
  refine ⟨fun a ha => ?_, fun a hend hprog => ?_, fun a hdisplay => ?_, fun q => by cases q <;> rfl,
    rfl, rfl, rfl, ⟨rfl, rfl⟩, ⟨rfl, rfl⟩, rfl⟩
  · exact (hread a).trans (dif_pos ha)
  · exact (hread a).trans (by rw [dif_neg (by omega), if_pos hprog])
  · exact (hread a).trans (by rw [dif_neg (by omega), if_neg (by omega)]; rfl)

end Sys2Proof.Proofs.MemoryFamily
end

section
/-! PROOF. The encoder and the decoder, each said once: what an opcode byte selects, what a variant builds of its operand
bytes, and what bytes decode to (R50, R51, R58 to R61, R76). -/

namespace Sys2Proof

open Sys2Proof.Machine Sys2Proof.Claims

/-! ### Opcode byte and variant (R58) -/

/-- The opcode byte of a variant selects it. -/
@[simp] theorem formOfOpcode_opcode (f : Form) : formOfOpcode f.opcode = some f := by cases f <;> rfl

/-- The bytes 85 to 255 select no variant (R60). -/
theorem formOfOpcode_eq_none {op : Byte} : formOfOpcode op = none ↔ 85 ≤ op.toNat := by
  rw [formOfOpcode, List.getElem?_eq_none_iff, params_opmap_length]

/-- The bytes 0 to 84 select a variant (R58). -/
theorem exists_formOfOpcode {op : Byte} (h : op.toNat < 85) : ∃ f, formOfOpcode op = some f :=
  Option.ne_none_iff_exists'.1 fun hnone => by have := formOfOpcode_eq_none.1 hnone; omega

/-- R59's list by opcode number gives the operand count of the variant that the opcode byte selects. -/
theorem operandCount_of_formOfOpcode {op : Byte} {f : Form} (h : formOfOpcode op = some f) :
    operandCount op.toNat = f.nops := by
  rw [eq_opcode_of_formOfOpcode h]
  cases f <;> rfl

/-! ### Operand bytes (R51) -/

/-- The instruction that a variant builds of a list with its operand bytes. -/
def Form.buildOf (f : Form) (operands : List Byte) : Instr := f.build (operands.getD 0 0) (operands.getD 1 0)

@[simp] theorem form_buildOf (f : Form) (operands : List Byte) : (f.buildOf operands).form = f := form_build ..

/-- An instruction has as many operand bytes as its variant says (R59). -/
theorem length_operandBytes (i : Instr) : i.operandBytes.length = i.form.nops := by cases i <;> rfl

/-- The variant of an instruction builds it of its operand bytes. -/
@[simp] theorem buildOf_operandBytes (i : Instr) : i.form.buildOf i.operandBytes = i := by
  cases i <;> simp [Form.buildOf, Form.build, Instr.form, Instr.operandBytes]

/-- The instruction built of two bytes has those of them as operand bytes that its variant takes. -/
theorem operandBytes_build (f : Form) (b1 b2 : Byte) : (f.build b1 b2).operandBytes = [b1, b2].take f.nops := by
  cases f <;> simp [Form.build, Instr.operandBytes, Form.nops, Form.format, Format.nops]

/-- The operand bytes that a variant takes: none, one or two (R50). -/
theorem operands_cases {f : Form} {operands : List Byte} (h : operands.length = f.nops) :
    (operands = [] ∧ f.nops = 0) ∨ (∃ b1, operands = [b1] ∧ f.nops = 1) ∨
      ∃ b1 b2, operands = [b1, b2] ∧ f.nops = 2 := by
  rcases nops_cases f with hn | hn | hn <;> rw [hn] at h
  · exact .inl ⟨List.length_eq_zero_iff.1 h, hn⟩
  · obtain ⟨b1, rfl⟩ := List.length_eq_one_iff.1 h
    exact .inr (.inl ⟨b1, rfl, hn⟩)
  · obtain ⟨b1, b2, rfl⟩ := List.length_eq_two.1 h
    exact .inr (.inr ⟨b1, b2, rfl, hn⟩)

/-- The instruction built of as many operand bytes as its variant takes has them as operand bytes. -/
theorem operandBytes_buildOf {f : Form} {operands : List Byte} (h : operands.length = f.nops) :
    (f.buildOf operands).operandBytes = operands := by
  rw [Form.buildOf, operandBytes_build, ← h]
  rcases operands_cases h with ⟨rfl, -⟩ | ⟨b1, rfl, -⟩ | ⟨b1, b2, rfl, -⟩ <;> rfl

/-- The instruction that an opcode byte's variant builds of its operand bytes is encoded by those bytes (R35, R68). -/
theorem encode_buildOf {op : Byte} {f : Form} {operands : List Byte} (hf : formOfOpcode op = some f)
    (h : operands.length = f.nops) : encode (f.buildOf operands) = op :: operands := by
  rw [encode, form_buildOf, operandBytes_buildOf h, eq_opcode_of_formOfOpcode hf]

/-! ### The decoder (R59, R60, R76) -/

theorem decode_invalidOpcode {op : Byte} (h : formOfOpcode op = none) (rest : List Byte) :
    decode (op :: rest) = .error (.invalidOpcode op) := by
  simp [decode, h]

theorem decode_missingOperands {op : Byte} {f : Form} (hf : formOfOpcode op = some f) {rest : List Byte}
    (h : rest.length < f.nops) : decode (op :: rest) = .error (.missingOperands op) := by
  simp only [decode, hf]
  rcases nops_cases f with hn | hn | hn <;> rw [hn] at h ⊢
  · exact absurd h (Nat.not_lt_zero _)
  · match rest, h with
    | [], _ => rfl
  · match rest, h with
    | [], _ | [_], _ => rfl

/-- An opcode byte and the operand bytes its variant takes decode to what the variant builds of them. -/
theorem decode_append {op : Byte} {f : Form} (hf : formOfOpcode op = some f) {operands : List Byte}
    (h : operands.length = f.nops) (rest : List Byte) :
    decode (op :: (operands ++ rest)) = .ok (f.buildOf operands, rest) := by
  simp only [decode, hf, ← h]
  rcases operands_cases h with ⟨rfl, -⟩ | ⟨b1, rfl, -⟩ | ⟨b1, b2, rfl, -⟩ <;> rfl

/-- Bytes that decode are an opcode byte, the operand bytes that its variant takes, and the bytes left. -/
theorem decode_inversion {bytes rest : List Byte} {i : Instr} (h : decode bytes = .ok (i, rest)) :
    ∃ op f operands, bytes = op :: (operands ++ rest) ∧ formOfOpcode op = some f ∧ operands.length = f.nops ∧
      i = f.buildOf operands := by
  cases bytes with
  | nil => cases h
  | cons op tail =>
    cases hf : formOfOpcode op with
    | none => rw [decode_invalidOpcode hf] at h; cases h
    | some f =>
      rcases Nat.lt_or_ge tail.length f.nops with hshort | hlong
      · rw [decode_missingOperands hf hshort] at h
        cases h
      · have htake : (tail.take f.nops).length = f.nops := List.length_take_of_le hlong
        have hdecode := decode_append hf htake (tail.drop f.nops)
        rw [List.take_append_drop, h] at hdecode
        obtain ⟨rfl, rfl⟩ : i = _ ∧ rest = _ := by simpa using hdecode
        exact ⟨op, f, tail.take f.nops, by rw [List.take_append_drop], hf, htake, rfl⟩

end Sys2Proof
end

section
/-! PROOF. The fetch of a Ready core, said once per length of the instruction, and the operand bytes that it reads off
the memory from pc on (R62, R235). -/

namespace Sys2Proof.Machine

open Sys2Proof.Claims

section Fetch

variable {s : State} {f : Form} {rule : Instr → State → Result}

/-! ### The step procedure, case by case -/

theorem step_of_ready (hrs : s.rs = .ready) : step s = fetch s exec := by
  simp [step, hrs]

theorem fetch_of_not_inMemory (hpc : inMemory s.pc = false) :
    fetch s rule = .next (s.enterFault (.instructionPointerOutOfBounds s.pc)) := by
  simp [fetch, hpc, takeFault]

theorem fetch_of_invalidOpcode (hpc : inMemory s.pc = true) (hop : formOfOpcode (s.load s.pc) = none) :
    fetch s rule = .next (s.enterFault (.invalidOpcode (s.load s.pc))) := by
  simp [fetch, hpc, hop, takeFault]

theorem fetch_of_nops_zero (hpc : inMemory s.pc = true) (hop : formOfOpcode (s.load s.pc) = some f)
    (hn : f.nops = 0) : fetch s rule = rule (f.build 0 0) s := by
  simp [fetch, hpc, hop, hn]

theorem fetch_of_nops_one (hpc : inMemory s.pc = true) (hop : formOfOpcode (s.load s.pc) = some f)
    (hn : f.nops = 1) : fetch s rule = fetchByte s fun b1 s1 => rule (f.build b1 0) s1 := by
  simp [fetch, hpc, hop, hn]

theorem fetch_of_nops_two (hpc : inMemory s.pc = true) (hop : formOfOpcode (s.load s.pc) = some f)
    (hn : f.nops = 2) :
    fetch s rule = fetchByte s fun b1 s1 => fetchByte s1 fun b2 s2 => rule (f.build b1 b2) s2 := by
  simp [fetch, hpc, hop, hn]

/-! ### One operand byte -/

theorem fetchByte_of_inMemory (h : inMemory (s.pc + 1) = true) (k : Byte → State → Result) :
    fetchByte s k = k (s.load (s.pc + 1)) (s.setPc (s.pc + 1)) := by
  rcases fetchByte_cases s k with ⟨-, e⟩ | ⟨hout, -⟩
  · exact e
  · exact absurd (h.symm.trans hout) nofun

/-- An operand byte beyond the last address, which leaves pc at 256 (R62, R232). -/
theorem fetchByte_of_last (h : s.pc = 255) (k : Byte → State → Result) :
    fetchByte s k = .next ((s.setPc 256).enterFault (.addressOutOfBounds 256)) := by
  have hnext : s.pc + 1 = 256 := by omega
  rcases fetchByte_cases s k with ⟨hin, -⟩ | ⟨-, e⟩
  · exact absurd (hnext ▸ hin) (by decide)
  · rwa [hnext] at e

/-- An operand fetch answers a next state when the rest does. -/
theorem fetchByte_next_of_forall {k : Byte → State → Result} (hk : ∀ b s1, ∃ t, k b s1 = .next t) :
    ∃ t, fetchByte s k = .next t := by
  rcases fetchByte_cases s k with ⟨-, e⟩ | ⟨-, e⟩ <;> rw [e]
  · exact hk _ _
  · exact ⟨_, rfl⟩

/-- The fetch answers a next state when every instruction does (R62). -/
theorem fetch_next_of_forall (hrule : ∀ i s1, ∃ t, rule i s1 = .next t) : ∃ t, fetch s rule = .next t := by
  cases hpc : inMemory s.pc with
  | false => exact ⟨_, fetch_of_not_inMemory hpc⟩
  | true =>
    cases hop : formOfOpcode (s.load s.pc) with
    | none => exact ⟨_, fetch_of_invalidOpcode hpc hop⟩
    | some f =>
      rcases nops_cases f with hn | hn | hn
      · exact fetch_of_nops_zero hpc hop hn ▸ hrule _ _
      · exact fetch_of_nops_one hpc hop hn ▸ fetchByte_next_of_forall fun _ _ => hrule _ _
      · exact fetch_of_nops_two hpc hop hn ▸
          fetchByte_next_of_forall fun _ _ => fetchByte_next_of_forall fun _ _ => hrule _ _

/-- An instruction at pc whose last operand byte would stand beyond the last address (R59, R62, R232). -/
theorem fetch_of_operand_beyond (hpc : inMemory s.pc = true) (hop : formOfOpcode (s.load s.pc) = some f)
    (hbeyond : 255 < s.pc + f.nops) :
    fetch s rule = .next ((s.setPc 256).enterFault (.addressOutOfBounds 256)) := by
  obtain ⟨hlo, hhi⟩ := inMemory_iff.1 hpc
  rcases nops_cases f with hn | hn | hn <;> rw [hn] at hbeyond
  · omega
  · rw [fetch_of_nops_one hpc hop hn, fetchByte_of_last (by omega)]
  · rw [fetch_of_nops_two hpc hop hn]
    by_cases hlast : s.pc = 255
    · rw [fetchByte_of_last hlast]
    · rw [fetchByte_of_inMemory (inMemory_iff.2 ⟨by omega, by omega⟩), fetchByte_of_last (by simp; omega)]
      rfl

/-! ### The bytes at pc -/

/-- The bytes at an address in memory are those of the memory up to its end, three at most (R50). -/
theorem getElem?_bytesAt {addr : Int} (h : inMemory addr = true) {k : Nat} (hk : k < 3) :
    (s.bytesAt addr)[k]? = if inMemory (addr + k) then some (s.load (addr + k)) else none := by
  have hend : inMemory (addr + 2) = true → inMemory (addr + 1) = true := by
    simp only [inMemory_iff] at h ⊢
    omega
  cases h1 : inMemory (addr + 1) with
  | false =>
    have h2 : inMemory (addr + 2) = false := Bool.eq_false_iff.2 fun h2 => by simp [hend h2] at h1
    match k, hk with
    | 0, _ | 1, _ | 2, _ => simp [State.bytesAt, h, h1, h2]
  | true =>
    cases h2 : inMemory (addr + 2) <;>
      match k, hk with
      | 0, _ | 1, _ | 2, _ => simp [State.bytesAt, h, h1, h2]

/-- A byte after pc among the bytes at pc is in memory, and is the one loaded from there. -/
theorem load_of_getElem?_bytesAt {addr : Int} (h : inMemory addr = true) {k : Nat} (hk : k < 3) {b : Byte}
    (hb : (s.bytesAt addr)[k]? = some b) : inMemory (addr + k) = true ∧ s.load (addr + k) = b := by
  rw [getElem?_bytesAt h hk] at hb
  simpa using hb

/-- Where an opcode byte and the operand bytes its variant takes stand at pc, the rule is handed what the variant builds
of them, in the state in which pc is at the last of them (R62; log 28). -/
theorem fetch_of_bytesAt {op : Byte} {operands rest : List Byte} (hpc : inMemory s.pc = true)
    (hbytes : s.bytesAt s.pc = op :: (operands ++ rest)) (hop : formOfOpcode op = some f)
    (hlen : operands.length = f.nops) :
    fetch s rule = rule (f.buildOf operands) (s.setPc (s.pc + f.nops)) := by
  have hload {k : Nat} (hk : k < 3) {b : Byte} (hb : (op :: (operands ++ rest))[k]? = some b) :=
    load_of_getElem?_bytesAt hpc hk (hbytes ▸ hb)
  obtain ⟨-, h0⟩ := hload (k := 0) (by decide) rfl
  rw [Int.natCast_zero, Int.add_zero] at h0
  subst h0
  rcases operands_cases hlen with ⟨rfl, hn⟩ | ⟨b1, rfl, hn⟩ | ⟨b1, b2, rfl, hn⟩
  · rw [fetch_of_nops_zero hpc hop hn, hn, Int.natCast_zero, Int.add_zero]
    rfl
  · obtain ⟨hin1, rfl⟩ := hload (k := 1) (by decide) rfl
    rw [fetch_of_nops_one hpc hop hn, fetchByte_of_inMemory hin1, hn]
    rfl
  · obtain ⟨hin1, rfl⟩ := hload (k := 1) (by decide) rfl
    obtain ⟨hin2, rfl⟩ := hload (k := 2) (by decide) rfl
    have hpc2 : (s.setPc (s.pc + 1)).pc + 1 = s.pc + 2 := by simp; omega
    rw [fetch_of_nops_two hpc hop hn, fetchByte_of_inMemory hin1, fetchByte_of_inMemory (by rw [hpc2]; exact hin2),
      hpc2, hn]
    rfl

end Fetch

end Sys2Proof.Machine
end

section
/-! PROOF. What the operand bytes of an instruction designate: invalid register bytes (R52), the fields of a
RegisterIndirect byte (R53), DirectAddress bytes (R54), StackOffset bytes (R56). -/

namespace Sys2Proof.Machine

open Sys2Proof.Claims

section Operands

variable {s : State}

/-! ### Invalid register bytes (R52) -/

/-- The register bytes that R52 gives no register. -/
def invalidRegByte (b : RegByte) : Bool := decide (4 ≤ b.toNat)

/-- The check of a register byte that is the only one and is invalid. -/
theorem withReg_of_find {d b : RegByte} (h : [d].find? invalidRegByte = some b) (k : Reg → Result) :
    withReg d s k = .next (faultState (.invalidRegister b) s) := by
  obtain rfl : d = b := List.mem_singleton.1 (List.mem_of_find?_eq_some h) ▸ rfl
  have hbad : invalidRegByte d = true := List.find?_some h
  exact withReg_of_ge (of_decide_eq_true hbad) s k

/-- The checks of two register bytes, of which the first invalid one is reported: the second is looked at only when the
first is valid (R235). -/
theorem withReg_withReg_of_find {d r b : RegByte} (h : [d, r].find? invalidRegByte = some b) (k : Reg → Reg → Result) :
    withReg d s (fun dst => withReg r s (k dst)) = .next (faultState (.invalidRegister b) s) := by
  cases hd : invalidRegByte d with
  | true =>
    rw [List.find?_cons_of_pos hd] at h
    exact withReg_of_find (by rw [List.find?_cons_of_pos hd, h]) _
  | false =>
    rw [List.find?_cons_of_neg (by simp [hd])] at h
    have hvalid : d.toNat < 4 := Nat.lt_of_not_le (of_decide_eq_false hd)
    exact withReg_eq_of_forall hvalid fun dst => withReg_of_find h (k dst)

/-! ### RegisterIndirect fields (R53) -/

@[simp] theorem toNat_reg_ofByte (v : Byte) : (Indirect.ofByte v).reg.toNat = v.toNat % 8 := by
  simp [Indirect.ofByte]

theorem toNat_off_ofByte (v : Byte) : (Indirect.ofByte v).off.toNat = v.toNat / 8 := by
  have := v.isLt
  simp [Indirect.ofByte, Nat.shiftRight_eq_div_pow]
  omega

/-- The offset field read as two's complement: 0 to 15 is itself, 16 to 31 is 32 less. -/
theorem toInt_off_ofByte (v : Byte) :
    (Indirect.ofByte v).off.toInt =
      if v.toNat / 8 < 16 then ((v.toNat / 8 : Nat) : Int) else ((v.toNat / 8 : Nat) : Int) - 32 := by
  rw [BitVec.toInt_eq_toNat_cond, toNat_off_ofByte]
  split <;> split <;> omega

/-- The base of a RegisterIndirect operand by its register field: SP for every field but the four of the registers. -/
theorem base_eq (s : State) (x : Indirect) :
    s.base x = if x.reg.toNat = 0 then s.al else if x.reg.toNat = 1 then s.bl else if x.reg.toNat = 2 then s.cl
      else if x.reg.toNat = 3 then s.dl else s.sp := by
  unfold State.base
  match x.reg.toNat with
  | 0 | 1 | 2 | 3 => rfl
  | n + 4 => simp [ofIndex_none.2 (Nat.le_add_left 4 n)]

/-! ### StackOffset bytes (R56) -/

/-- The StackOffset address with the offset byte's two's complement written out. -/
theorem eaSp_eq (s : State) (o : Byte) :
    s.eaSp o = s.sp.toNat + (if o.toNat < 128 then (o.toNat : Int) else (o.toNat : Int) - 256) := by
  rw [State.eaSp, BitVec.toInt_eq_toNat_cond]
  split <;> split <;> omega

/-! ### Loads and stores in memory, DirectAddress bytes (R54, R81 to R90) -/

/-- A load into a valid register from an address in memory ends with the byte there in the register. -/
theorem withRead_writeReg {addr : Int} (h : inMemory addr = true) (d : Reg) :
    ∃ t, withReg d.toByte s (fun dst => withRead addr s fun v => writeReg dst v s) = .next t ∧
      t.reg d = byteAt s addr.toNat := by
  rw [withReg_toByte, withRead_of_in h]
  exact ⟨_, rfl, by simp [State.load_def, byteAt]⟩

/-- A store to an address in memory ends with the byte there and every other byte as before. -/
theorem withWrite_advance {addr : Int} (h : inMemory addr = true) (v : Byte) :
    ∃ t, withWrite addr v s (fun s1 => .next s1.advance) = .next t ∧ byteAt t addr.toNat = v ∧
      SameMemoryBut addr.toNat s t := by
  rw [withWrite_of_in h]
  have hbyte (a : Nat) : byteAt (s.store addr v).advance a = byteAt (s.store addr v) a := by simp [byteAt]
  refine ⟨_, rfl, by simp [hbyte], fun a ha => by simp [hbyte, ha]⟩

/-- A second operand at a DirectAddress is the immediate operand with the byte there. -/
theorem withDirect_eq_withImmediate (b : RegByte) (a : Byte) (body : Reg → Byte → Byte → Result) :
    withDirect b a s body = withImmediate b (byteAt s a.toNat) s body := by
  simp [withDirect, withImmediate, byteAt, State.load_def]

/-- A push with SP above 0x80 passes its check (R200). -/
theorem withPush_of_lt (v : Byte) (k : State → Result) (h : 0x80 < s.sp.toNat) :
    withPush v s k = k (pushed v s) := by
  rcases withPush_cases v s k with ⟨-, e⟩ | ⟨hlow, -⟩
  · exact e
  · bv_omega

/-- A jump with a DirectAddress goes to the byte itself when it is taken (R54, R170). -/
theorem exec_direct_of_jumpFamily {dir : Byte → Instr} {ind : Indirect → Instr} {taken : Flags → Bool}
    (h : JumpFamily dir ind taken) (a : Byte) (s : State) :
    exec (dir a) s = .next (s.setPc (if taken s.flags then a.toNat else s.pc + 1)) := by
  cases h <;> unfold exec <;> exact jumpIf_eq _ _ s

/-- Every jump family is taken with some flags: each looks at one flag at most (R171). -/
theorem exists_taken_of_jumpFamily {dir : Byte → Instr} {ind : Indirect → Instr} {taken : Flags → Bool}
    (h : JumpFamily dir ind taken) : ∃ fl, taken fl = true := by
  cases h with
  | jmp | jc | jz | jo | js => exact ⟨⟨true, true, true, true⟩, rfl⟩
  | jnc | jnz | jno | jns => exact ⟨⟨false, false, false, false⟩, rfl⟩

end Operands

end Sys2Proof.Machine
end

section
/-! PROOF. Pass 1 of the assembler emits below address 192 only, so its output ends there (R71). -/

namespace Sys2Proof.Asm

/-! ### Results that may be an error -/

theorem bind_ok {ε α β : Type} {x : Except ε α} {k : α → Except ε β} {b : β} (h : x.bind k = .ok b) :
    ∃ a, x = .ok a ∧ k a = .ok b := by
  cases x with
  | error e => cases h
  | ok a => exact ⟨a, rfl, h⟩

theorem map_ok {ε α β : Type} {x : Except ε α} {g : α → β} {b : β} (h : x.map g = .ok b) :
    ∃ a, x = .ok a ∧ g a = b := by
  cases x with
  | error e => cases h
  | ok a => exact ⟨a, rfl, Except.ok.inj h⟩

/-! ### Where pass 1 emits -/

/-- Every byte emitted so far is at an address below 192 (R71). -/
def Pass.Fits (p : Pass) : Prop := ∀ e ∈ p.bytes, e.addr < 192

/-- If it succeeds, it answers a pass whose bytes are below 192. -/
def OkFits {ε : Type} (r : Except ε Pass) : Prop := ∀ q, r = .ok q → q.Fits

section Fits

variable {p : Pass} {ε : Type}

theorem OkFits.ok (h : p.Fits) : OkFits (.ok p : Except ε Pass) := fun _ hq => Except.ok.inj hq ▸ h

theorem OkFits.error (e : ε) : OkFits (.error e) := nofun

theorem OkFits.bind {α : Type} {x : Except ε α} {k : α → Except ε Pass} (h : ∀ v, x = .ok v → OkFits (k v)) :
    OkFits (x.bind k) := by
  intro q hq
  obtain ⟨v, hx, hk⟩ := bind_ok hq
  exact h v hx q hk

theorem emit_fits (h : p.Fits) (line : Nat) (value : Byte) (patch : Option (List Char)) :
    OkFits (p.emit line value patch) := by
  intro q hq
  obtain ⟨hlt, rfl⟩ := emit_ok hq
  intro e he
  rcases List.mem_cons.1 he with rfl | he
  · exact hlt
  · exact h e he

theorem emitAll_fits (line : Nat) (payloads : List Payload) (h : p.Fits) : OkFits (p.emitAll line payloads) := by
  induction payloads generalizing p with
  | nil => exact .ok h
  | cons payload rest ih =>
    cases payload with
    | byte b => exact .bind fun q hq => ih (emit_fits h line b none q hq)
    | label name => exact .bind fun q hq => ih (emit_fits h line 0 (some name) q hq)

theorem define_fits (h : p.Fits) (name : List Char) : OkFits (p.define name) := by
  intro q hq
  rw [define_ok hq]
  exact h

/-- `ORG` moves the cursor and emits nothing; `DB` emits (R69). -/
theorem directive_fits (h : p.Fits) (line : Nat) (isOrg : Bool) (os : List Operand) :
    OkFits (p.directive line isOrg os) := by
  unfold Pass.directive
  split
  · split
    · exact .ok h
    · exact .error _
  · exact .error _
  · exact .bind fun b _ => emitAll_fits line [b] h
  · exact .error _
  · exact .bind fun bs _ => emitAll_fits line bs h
  · exact .error _

theorem statement_fits (h : p.Fits) (line : Nat) (name : List Char) (operands : List (List Char)) :
    OkFits (p.statement line name operands) := by
  refine .bind fun os _ => ?_
  split
  · exact directive_fits h line true os
  · split
    · exact directive_fits h line false os
    · exact .bind fun f _ => .bind fun payloads _ => emitAll_fits line _ h

theorem line_fits (h : p.Fits) (n : Nat) (text : List Char) : OkFits (p.line n text) := by
  unfold Pass.line
  refine .bind fun q hq => ?_
  have hfits : q.Fits := by
    split at hq
    · exact define_fits h _ q hq
    · exact Except.ok.inj hq ▸ h
  split
  · exact .ok hfits
  · exact statement_fits hfits n _ _

theorem lines_fits (n : Nat) (texts : List (List Char)) (h : p.Fits) : OkFits (p.lines n texts) := by
  induction texts generalizing p n with
  | nil => exact .ok h
  | cons text rest ih =>
    unfold Pass.lines
    split
    · exact .error _
    next q hq => exact ih (n + 1) (line_fits h n text q hq)

end Fits

/-! ### The output -/

/-- The output of a source text is as long as the bytes that pass 1 emitted reach (R71). -/
theorem length_assemble {source : List Char} {out : Output} (h : assemble source = .ok out) :
    ∃ p, Pass.lines { cursor := 0, bytes := [], labels := [] } 1 (splitAtChar '\n' source) = .ok p ∧
      out.bytes.length = extent p.bytes.reverse := by
  obtain ⟨p, hp, hmap⟩ := bind_ok h
  obtain ⟨overwrites, -, rfl⟩ := map_ok hmap
  exact ⟨p, hp, by rw [List.length_map, List.length_range]⟩

end Sys2Proof.Asm
end

section
/-! PROOF. The obligations of the family of the encoding: the round trips of encoder and decoder, the fetch, the operand
bytes of an instruction, the length of the assembler's output (R50 to R62, R71, R76). -/

namespace Sys2Proof.Proofs.EncodingFamily

open Sys2Proof.Machine Sys2Proof.Claims

/-! ### Encoding -/

/-- Settles O4: the opcode byte selects the instruction's variant, which builds it again of its operand bytes. -/
theorem decodeOfEncode : Obligations.DecodeOfEncode := by
  intro i rest
  have hdecode := decode_append (formOfOpcode_opcode i.form) (length_operandBytes i) rest
  rwa [buildOf_operandBytes] at hdecode

/-- Settles O5: bytes that decode are an opcode byte and operand bytes, which encode what is built of them. -/
theorem encodeOfDecode : Obligations.EncodeOfDecode := by
  intro bytes rest i h
  obtain ⟨op, f, operands, rfl, hf, hlen, rfl⟩ := decode_inversion h
  rw [encode_buildOf hf hlen, List.cons_append]

/-- Settles O6: the opcode byte selects a variant or none, and R59's count is the variant's. -/
theorem opcodeFixesLength : Obligations.OpcodeFixesLength := by
  intro op rest
  refine ⟨fun hbad => decode_invalidOpcode (formOfOpcode_eq_none.2 hbad) rest, fun hop hshort => ?_,
    fun hop henough => ?_⟩
  · obtain ⟨f, hf⟩ := exists_formOfOpcode hop
    exact decode_missingOperands hf (operandCount_of_formOfOpcode hf ▸ hshort)
  · obtain ⟨f, hf⟩ := exists_formOfOpcode hop
    rw [operandCount_of_formOfOpcode hf] at henough ⊢
    have hdecode := decode_append hf (List.length_take_of_le henough) (rest.drop f.nops)
    rw [List.take_append_drop] at hdecode
    exact ⟨_, hdecode⟩

/-- Settles O7, by evaluating the decoder at each word. -/
theorem writtenWordsDecode : Obligations.WrittenWordsDecode :=
  ⟨rfl, rfl, rfl, rfl, rfl, rfl, rfl, rfl, rfl, rfl, rfl, rfl⟩

/-! ### The step -/

/-- Settles O8: the bytes at pc are an opcode byte and the operand bytes of what they decode to, which the fetch reads
one after the other. -/
theorem stepRunsDecoded : Obligations.StepRunsDecoded := by
  intro s i rest hrs hspace hdecode
  obtain ⟨op, f, operands, hbytes, hop, hlen, rfl⟩ := decode_inversion hdecode
  rw [step_of_ready hrs, fetch_of_bytesAt (inMemory_iff_inSpace.2 hspace) hbytes hop hlen, Instr.length, form_buildOf,
    Nat.cast_add, Nat.cast_one, add_sub_cancel_left]
  rfl

/-- Settles O9: pc outside the memory space, a byte at pc that selects no variant, and a variant whose operand bytes do
not all fit below 256 (R62). -/
theorem fetchFaults : Obligations.FetchFaults := by
  intro s hrs
  rw [step_of_ready hrs]
  refine ⟨fun hout => ?_, fun hspace hbad => ?_, fun hspace hop hbeyond => ?_⟩
  · exact fetch_of_not_inMemory (Bool.eq_false_iff.2 fun hin => hout (inMemory_iff_inSpace.1 hin))
  · exact fetch_of_invalidOpcode (inMemory_iff_inSpace.2 hspace) (formOfOpcode_eq_none.2 hbad)
  · obtain ⟨f, hf⟩ := exists_formOfOpcode hop
    rw [operandCount_of_formOfOpcode hf] at hbeyond
    exact fetch_of_operand_beyond (inMemory_iff_inSpace.2 hspace) hf hbeyond

/-- Settles O11: every instruction has an effect in every state, and the fetch of a Ready core ends in a fault or in an
instruction. -/
theorem everyInstructionAnswers : Obligations.EveryInstructionAnswers := by
  have hexec (i : Instr) (s : State) : ∃ t, exec i s = .next t := (exec_answers i s).imp fun _ h => h.1
  exact ⟨hexec, fun s hrs => step_of_ready hrs ▸ fetch_next_of_forall hexec⟩

/-! ### Operand bytes -/

/-- Settles O26, by the register bytes of each instruction: its meaning begins with the check of the first, and the check
of the second, where there is one, comes before everything else (R235). -/
theorem invalidRegisterByteFaults : Obligations.InvalidRegisterByteFaults := by
  intro i s b h
  unfold exec
  cases i with
  | movRR d r | addR d r | subR d r | mulR d r | divR d r | cmpR d r | andR d r | orR d r | xorR d r | shlR d r
  | shrR d r => exact withReg_withReg_of_find h _
  | movRA d _ | movRX d _ | movAR _ d | movXR _ d | movRI d _ | movRS d _ | movSR _ d
  | addI d _ | addA d _ | addX d _ | subI d _ | subA d _ | subX d _ | mulI d _ | mulA d _ | mulX d _
  | divI d _ | divA d _ | divX d _ | cmpI d _ | cmpA d _ | cmpX d _ | andI d _ | andA d _ | andX d _
  | orI d _ | orA d _ | orX d _ | xorI d _ | xorA d _ | xorX d _ | shlI d _ | shlA d _ | shlX d _
  | shrI d _ | shrA d _ | shrX d _ | inc d | dec d | neg d | not d | pushR d | pop d => exact withReg_of_find h _
  | _ => cases h

/-- Settles O31, by the two fields of the byte. -/
theorem registerIndirectAddress : Obligations.RegisterIndirectAddress := by
  intro s v
  refine ⟨?_, eaInd_range s (.ofByte v)⟩
  rw [State.eaInd, base_eq, toNat_reg_ofByte, toInt_off_ofByte]

/-- Settles O33: the address is a sum, and its two users read or write the byte there and leave SP. -/
theorem stackOffsetAddress : Obligations.StackOffsetAddress := by
  refine ⟨fun s o => ⟨eaSp_eq s o, fun hsp => ?_⟩, fun s t b o h => ?_, fun s d o hspace => ⟨?_, ?_⟩, fun s hsp => ?_⟩
  · have := o.isLt
    rw [eaSp_eq]
    split <;> omega
  · rcases h with h | h
    · exact (exec_effect h).sp (of_decide_eq_true rfl)
    · exact (exec_effect h).sp (of_decide_eq_true rfl)
  · exact withRead_writeReg (inMemory_iff_inSpace.2 hspace) d
  · obtain ⟨t, ht, hbyte, -⟩ := withWrite_advance (inMemory_iff_inSpace.2 hspace) (s.reg d)
    exact ⟨t, (withReg_toByte d s _).trans ht, hbyte⟩
  · simp only [eaSp_eq, hsp]
    decide

/-- Settles O32, user by user of a DirectAddress byte: it is in memory as it stands, and as a target it is not looked
at. -/
theorem directAddressIsLiteral : Obligations.DirectAddressIsLiteral := by
  intro s a
  refine ⟨fun d => ?_, fun r => ?_, fun k => ?_, ?_, fun dir imm hpair b => ?_, fun dir ind taken hjump => ⟨?_, ?_⟩,
    fun hsp => ?_⟩
  · unfold exec
    exact withRead_writeReg (inMemory_byte a) d
  · obtain ⟨t, ht, hbyte⟩ := withWrite_advance (inMemory_byte a) (s.reg r)
    exact ⟨t, (withReg_toByte r s _).trans ht, hbyte⟩
  · unfold exec
    exact withWrite_advance (inMemory_byte a) k
  · unfold exec
    exact withRead_byte a s _
  · cases hpair <;> unfold exec <;> exact withDirect_eq_withImmediate b a _
  · refine ⟨_, exec_direct_of_jumpFamily hjump a s, ?_⟩
    cases taken s.flags
    · exact .inr rfl
    · exact .inl rfl
  · obtain ⟨fl, htaken⟩ := exists_taken_of_jumpFamily hjump
    exact ⟨fl, _, exec_direct_of_jumpFamily hjump a _, by simp [htaken]⟩
  · unfold exec
    exact ⟨_, withPush_of_lt _ _ (by omega), rfl⟩

/-! ### The assembler -/

/-- Settles O59: pass 1 starts with no byte and every line of it emits below 192, so the output ends there. -/
theorem assemblerOutputFitsProgramRegion : Obligations.AssemblerOutputFitsProgramRegion := by
  intro source out h
  obtain ⟨p, hp, hlength⟩ := Asm.length_assemble h
  have hfits : p.Fits := Asm.lines_fits 1 _ (fun _ he => absurd he List.not_mem_nil) p hp
  rw [hlength]
  exact Asm.extent_le fun e he => hfits e (List.mem_reverse.1 he)

end Sys2Proof.Proofs.EncodingFamily
end

section
/-! PROOF. What a MOV does to the state, in one equation for its forms that load and one for its forms that store (R80
to R90), and the frame of a register write. -/

namespace Sys2Proof.Machine

open Sys2Proof.Claims

/-! ### The frame of a register write -/

/-- A write of flags, of one register and of `pc <- next` leaves everything else as before (R80, R100). -/
theorem onlyRegisterWritten_setFlags_setReg_advance (d : Reg) (v : Byte) (fl : Flags) (s : State) :
    OnlyRegisterWritten d s ((s.setFlags fl).setReg d v).advance := by
  refine ⟨fun q hq => ?_, ?_, fun a => ?_, ⟨?_, ?_⟩, ⟨?_, ?_⟩, ?_, ?_⟩
  · simp [hq]
  · simp
  · simp [byteAt]
  all_goals simp

/-- A write of one register and of `pc <- next` is one that writes the flags it finds (R80, D9). -/
theorem onlyRegisterWritten_setReg_advance (d : Reg) (v : Byte) (s : State) :
    OnlyRegisterWritten d s (s.setReg d v).advance :=
  onlyRegisterWritten_setFlags_setReg_advance d v s.flags s

/-! ### The forms of MOV -/

section Mov

variable {s : State} {i : Instr} {v : Byte}

/-- Every form of MOV to a register writes its value there and moves pc: its register bytes are valid and the address it
reads, if any, is in memory (R81, R82, R83, R86, R89). -/
theorem exec_loadForm {d : Reg} (h : LoadForm s d i v) : exec i s = .next (s.setReg d v).advance := by
  cases h with
  | register r => exact (withReg_toByte d s _).trans (withReg_toByte r s _)
  | immediate => exact withReg_toByte d s _
  | direct a => exact (withReg_toByte d s _).trans (withRead_byte a s _)
  | indirect x hspace | stackOffset o hspace =>
    exact (withReg_toByte d s _).trans (withRead_of_in (inMemory_iff_inSpace.2 hspace) s _)

/-- Every form of MOV to memory makes the one access that `MemWrite` describes, its register byte being valid (R84, R85,
R87, R88, R90). -/
theorem exec_storeForm {addr : Int} (h : StoreForm s i addr v) :
    exec i s = withWrite addr v s fun s1 => .next s1.advance := by
  cases h with
  | directRegister a r | indirectRegister x r | stackRegister o r => exact withReg_toByte r s _
  | directImmediate a | indirectImmediate x => rfl

end Mov

end Sys2Proof.Machine
end

section
/-! PROOF. The obligations of the family of data movement: MOV to a register and MOV to memory (R80 to R91). -/

namespace Sys2Proof.Proofs.DataMovementFamily

open Sys2Proof.Machine Sys2Proof.Claims

/-- Settles O36: every form ends in the state after one store and `pc <- next`, and a store changes one byte of memory
and the events. -/
theorem movToMemory : Obligations.MovToMemory := by
  intro s i addr v hform hspace
  have hexec : exec i s = .next (s.store addr v).advance := by
    rw [exec_storeForm hform, withWrite_of_in (inMemory_iff_inSpace.2 hspace)]
  have hbyte (a : Nat) : byteAt (s.store addr v).advance a = if a = addr.toNat then v else byteAt s a :=
    byteAt_store s addr v a
  have hevents : (s.store addr v).advance.events = displayed addr.toNat v s.events := State.events_store s addr v
  refine ⟨_, hexec, ?_, fun a ha => ?_, fun q => ?_, ?_, ?_, ⟨?_, ?_⟩, ⟨?_, ?_⟩, hevents, ?_⟩
  · rw [hbyte, if_pos rfl]
  · rw [hbyte, if_neg ha]
  all_goals simp

/-- Settles O35: every form ends in the state after one register write and `pc <- next`. -/
theorem movToRegister : Obligations.MovToRegister := by
  intro s d i v hform
  exact ⟨_, exec_loadForm hform, by simp, by simp, onlyRegisterWritten_setReg_advance d v s⟩

end Sys2Proof.Proofs.DataMovementFamily
end

section
/-! PROOF. The four source forms of a two-operand ALU instruction brought to one (R100), and the state that the write of
an ALU result leaves (R100, R120). -/

namespace Sys2Proof.Machine

open Sys2Proof.Claims

/-! ### The four source forms (R100) -/

/-- What the four constructors of a two-operand ALU instruction mean in state `s`: each evaluates its second operand and
hands destination and operands on to the same `body`. -/
structure SourceMeaning (imm reg dir : Byte → Byte → Instr) (ind : Byte → Indirect → Instr) (s : State)
    (body : Reg → Byte → Byte → Result) : Prop where
  immediate (b k : Byte) : exec (imm b k) s = withImmediate b k s body
  register (b r : Byte) : exec (reg b r) s = withRegister b r s body
  direct (b a : Byte) : exec (dir b a) s = withDirect b a s body
  indirect (b : Byte) (x : Indirect) : exec (ind b x) s = withIndirect b x s body

/-- Every source form hands on the destination, its value and the value that `SourceForm` gives the second operand: the
register bytes are valid and the address read, if any, is in memory. -/
theorem SourceMeaning.exec_eq {imm reg dir : Byte → Byte → Instr} {ind : Byte → Indirect → Instr} {s : State}
    {body : Reg → Byte → Byte → Result} (hm : SourceMeaning imm reg dir ind s body) {d : Reg} {i : Instr} {b : Byte}
    (h : SourceForm imm reg dir ind s d i b) : exec i s = body d (s.reg d) b := by
  cases h with
  | immediate k => exact (hm.immediate _ _).trans (withReg_toByte d s _)
  | register r => exact (hm.register _ _).trans ((withReg_toByte d s _).trans (withReg_toByte r s _))
  | direct a => exact (hm.direct _ _).trans ((withReg_toByte d s _).trans (withRead_byte a s _))
  | indirect x hspace =>
    exact (hm.indirect _ _).trans
      ((withReg_toByte d s _).trans (withRead_of_in (inMemory_iff_inSpace.2 hspace) s _))

/-! ### The state after a result is written (R100) -/

/-- The state that `writeResult` leaves. -/
def resultState (d : Reg) (r : AluResult) (s : State) : State := ((s.setFlags r.flags).setReg d r.value).advance

theorem writeResult_eq (d : Reg) (r : AluResult) (s : State) : writeResult d r s = .next (resultState d r s) := rfl

@[simp] theorem reg_resultState (d : Reg) (r : AluResult) (s : State) : (resultState d r s).reg d = r.value := by
  simp [resultState]

@[simp] theorem flags_resultState (d : Reg) (r : AluResult) (s : State) : (resultState d r s).flags = r.flags := by
  simp [resultState]

theorem onlyRegisterWritten_resultState (d : Reg) (r : AluResult) (s : State) :
    OnlyRegisterWritten d s (resultState d r s) :=
  onlyRegisterWritten_setFlags_setReg_advance d r.value r.flags s

/-- `SetZS` gives Z and S of the masked result, which is what the destination holds (R100). -/
theorem zeroSignOf_resultState (d : Reg) (n : Int) (c o : Bool) (s : State) :
    ZeroSignOf (resultState d (aluResult n c o) s) ((resultState d (aluResult n c o) s).reg d) := by
  have hzero : low n = 0 ↔ (low n).toNat = 0 := BitVec.toNat_inj.symm
  constructor
  · simpa using hzero
  · simpa using bit7_iff (low n)

/-- When the rest of the four forms writes the result of `op`, every form ends in the state with that result. -/
theorem SourceMeaning.exec_writeResult {imm reg dir : Byte → Byte → Instr} {ind : Byte → Indirect → Instr} {s : State}
    {op : Byte → Byte → AluResult} (hm : SourceMeaning imm reg dir ind s fun d v w => writeResult d (op v w) s)
    {d : Reg} {i : Instr} {b : Byte} (h : SourceForm imm reg dir ind s d i b) :
    exec i s = .next (resultState d (op (s.reg d) b) s) :=
  (hm.exec_eq h).trans (writeResult_eq d _ s)

/-! ### The arithmetic instructions end in that state (R101 to R119) -/

section Forms

variable {s : State} {d : Reg} {i : Instr} {b : Byte}

theorem exec_addForm (h : SourceForm .addI .addR .addA .addX s d i b) :
    exec i s = .next (resultState d (aluAdd (s.reg d) b) s) :=
  SourceMeaning.exec_writeResult (op := aluAdd)
    ⟨fun _ _ => rfl, fun _ _ => rfl, fun _ _ => rfl, fun _ _ => rfl⟩ h

theorem exec_subForm (h : SourceForm .subI .subR .subA .subX s d i b) :
    exec i s = .next (resultState d (aluSub (s.reg d) b) s) :=
  SourceMeaning.exec_writeResult (op := aluSub)
    ⟨fun _ _ => rfl, fun _ _ => rfl, fun _ _ => rfl, fun _ _ => rfl⟩ h

theorem exec_mulForm (h : SourceForm .mulI .mulR .mulA .mulX s d i b) :
    exec i s = .next (resultState d (aluMul (s.reg d) b) s) :=
  SourceMeaning.exec_writeResult (op := aluMul)
    ⟨fun _ _ => rfl, fun _ _ => rfl, fun _ _ => rfl, fun _ _ => rfl⟩ h

theorem exec_divForm (h : SourceForm .divI .divR .divA .divX s d i b) : exec i s = divideInto d (s.reg d) b s :=
  SourceMeaning.exec_eq (body := fun d v w => divideInto d v w s)
    ⟨fun _ _ => rfl, fun _ _ => rfl, fun _ _ => rfl, fun _ _ => rfl⟩ h

end Forms

theorem exec_inc (s : State) (d : Reg) : exec (.inc d.toByte) s = .next (resultState d (aluInc (s.reg d)) s) :=
  (withReg_toByte d s _).trans (writeResult_eq d _ s)

theorem exec_dec (s : State) (d : Reg) :
    exec (.dec d.toByte) s = .next (resultState d (aluDec (s.reg d) s.flags.c) s) :=
  (withReg_toByte d s _).trans (writeResult_eq d _ s)

theorem exec_neg (s : State) (d : Reg) : exec (.neg d.toByte) s = .next (resultState d (aluNeg (s.reg d)) s) :=
  (withReg_toByte d s _).trans (writeResult_eq d _ s)

end Sys2Proof.Machine
end

section
/-! PROOF. The results and flags of the arithmetic operations as facts about numbers: values modulo 256, C from the
exact unsigned result, O from the exact signed one (R100 to R123). -/

namespace Sys2Proof.Machine

/-! ### The masked result and the sign bit -/

/-- The low byte of a natural number is its residue modulo 256. -/
theorem toNat_low_natCast (n : Nat) : (low (n : Int)).toNat = n % 256 := by
  have := toNat_low n
  omega

/-- Two bytes have the same sign bit when both or neither are 128 or more. -/
theorem bit7_eq_iff (v w : Byte) : bit7 v = bit7 w ↔ (128 ≤ v.toNat ↔ 128 ≤ w.toNat) := by
  rw [Bool.eq_iff_iff, bit7_iff, bit7_iff]

/-! ### ADD and SUB (R101 to R108, R120) -/

section AddSub

variable (a b : Byte)

theorem toNat_value_aluAdd : (aluAdd a b).value.toNat = (a.toNat + b.toNat) % 256 :=
  toNat_low_natCast (a.toNat + b.toNat)

theorem c_aluAdd_iff : (aluAdd a b).flags.c = true ↔ 255 < a.toNat + b.toNat := by
  simp only [aluAdd, c_aluResult, decide_eq_true_eq]
  omega

/-- Operands of one sign with a result of the other is a signed sum out of range. -/
theorem o_aluAdd_iff : (aluAdd a b).flags.o = true ↔ a.toInt + b.toInt < -128 ∨ 127 < a.toInt + b.toInt := by
  have hsum := toNat_low (a.toNat + b.toNat)
  simp only [aluAdd, o_aluResult, Bool.and_eq_true, decide_eq_true_eq, ne_eq, bit7_eq_iff, BitVec.toInt_eq_toNat_cond]
  omega

theorem toNat_value_aluSub : (aluSub a b).value.toNat = (a.toNat + 256 - b.toNat) % 256 := by
  have hdiff := toNat_low (a.toNat - b.toNat)
  simp only [aluSub, value_aluResult]
  omega

theorem c_aluSub_iff : (aluSub a b).flags.c = true ↔ a.toNat < b.toNat := decide_eq_true_iff

/-- Operands of different signs with a result of the subtrahend's sign is a signed difference out of range. -/
theorem o_aluSub_iff : (aluSub a b).flags.o = true ↔ a.toInt - b.toInt < -128 ∨ 127 < a.toInt - b.toInt := by
  have hdiff := toNat_low (a.toNat - b.toNat)
  simp only [aluSub, o_aluResult, Bool.and_eq_true, decide_eq_true_eq, ne_eq, bit7_eq_iff, BitVec.toInt_eq_toNat_cond]
  omega

end AddSub

/-! ### INC, DEC and NEG (R109 to R111) -/

theorem toNat_value_aluInc (a : Byte) : (aluInc a).value.toNat = (a.toNat + 1) % 256 :=
  toNat_low_natCast (a.toNat + 1)

theorem toNat_value_aluDec (a : Byte) (c : Bool) : (aluDec a c).value.toNat = (a.toNat + 255) % 256 := by
  have hdiff := toNat_low (a.toNat - 1)
  simp only [aluDec, value_aluResult]
  omega

theorem toNat_value_aluNeg (a : Byte) : (aluNeg a).value.toNat = (256 - a.toNat) % 256 := by
  have hdiff := toNat_low (0 - a.toNat)
  simp only [aluNeg, value_aluResult]
  omega

/-! ### MUL and DIV (R112 to R119, R122, R123) -/

section MulDiv

variable (a b : Byte)

theorem toNat_value_aluMul : (aluMul a b).value.toNat = (a.toNat * b.toNat) % 256 :=
  toNat_low_natCast (a.toNat * b.toNat)

theorem c_aluMul_iff : (aluMul a b).flags.c = true ↔ 256 ≤ a.toNat * b.toNat := by
  simp only [aluMul, c_aluResult, decide_eq_true_eq]
  omega

/-- A quotient of bytes is a byte, so masking it changes nothing. -/
theorem toNat_value_aluDiv : (aluDiv a b).value.toNat = a.toNat / b.toNat := by
  have hle : a.toNat / b.toNat ≤ a.toNat := Nat.div_le_self ..
  have hlt := a.isLt
  exact (toNat_low_natCast _).trans (Nat.mod_eq_of_lt (by omega))

end MulDiv

/-- A product with 0 is 0, so it fits in the byte and has Z set (R122). -/
theorem aluMul_of_zero {a b : Byte} (h : a = 0 ∨ b = 0) :
    aluMul a b = { value := 0, flags := { c := false, o := false, z := true, s := false } } := by
  have hproduct : (a.toNat : Int) * b.toNat = 0 := by rcases h with rfl | rfl <;> simp
  simp only [aluMul, hproduct]
  decide

/-- A quotient has its sign bit set only when the divisor is 1: by 2 or more it is at most 127 (R123). -/
theorem le_div_iff_divisor_eq_one {a b : Byte} (hb : b ≠ 0) :
    128 ≤ a.toNat / b.toNat ↔ b = 1 ∧ 128 ≤ a.toNat := by
  have hlt := a.isLt
  by_cases hone : b = 1
  · simp [hone]
  · have htwo : 2 ≤ b.toNat := by bv_omega
    have hhalf : a.toNat / b.toNat ≤ a.toNat / 2 := Nat.div_le_div_left htwo (by decide)
    simp only [hone, false_and, iff_false]
    omega

end Sys2Proof.Machine
end

section
/-! PROOF. The obligations of the family of arithmetic: ADD, SUB, INC, DEC, NEG, MUL and DIV (R100 to R124). -/

namespace Sys2Proof.Proofs.ArithmeticFamily

open Sys2Proof.Machine Sys2Proof.Claims

/-! ### ADD and SUB -/

/-- Settles O37: every form writes the result of `aluAdd`. -/
theorem addResult : Obligations.AddResult := by
  intro s d i b hform
  refine ⟨_, exec_addForm hform, ?_, ?_, ?_, zeroSignOf_resultState .., onlyRegisterWritten_resultState ..⟩
  · rw [reg_resultState, toNat_value_aluAdd]
  · rw [flags_resultState, c_aluAdd_iff]
  · rw [flags_resultState, o_aluAdd_iff]

/-- Settles O38: every form writes the result of `aluSub`. -/
theorem subResult : Obligations.SubResult := by
  intro s d i b hform
  refine ⟨_, exec_subForm hform, ?_, ?_, ?_, zeroSignOf_resultState .., onlyRegisterWritten_resultState ..⟩
  · rw [reg_resultState, toNat_value_aluSub]
  · rw [flags_resultState, c_aluSub_iff]
  · rw [flags_resultState, o_aluSub_iff]

/-! ### INC, DEC and NEG -/

/-- Settles O40: C and O are the comparisons that the three operations make on their operand. -/
theorem incDecNegResult : Obligations.IncDecNegResult := by
  intro s d
  refine ⟨?inc, ?dec, ?neg⟩
  case inc =>
    refine ⟨_, exec_inc s d, ?_, ?_, ?_, zeroSignOf_resultState .., onlyRegisterWritten_resultState ..⟩
    · rw [reg_resultState, toNat_value_aluInc]
    all_goals simp [aluInc]
  case dec =>
    refine ⟨_, exec_dec s d, ?_, ?_, ?_, zeroSignOf_resultState .., onlyRegisterWritten_resultState ..⟩
    · rw [reg_resultState, toNat_value_aluDec]
    all_goals simp [aluDec]
  case neg =>
    refine ⟨_, exec_neg s d, ?_, ?_, ?_, zeroSignOf_resultState .., onlyRegisterWritten_resultState ..⟩
    · rw [reg_resultState, toNat_value_aluNeg]
    all_goals simp [aluNeg]

/-! ### MUL and DIV -/

/-- Settles O41: every form writes the result of `aluMul`, which has one flag value for C and O. -/
theorem mulResult : Obligations.MulResult := by
  intro s d i b hform
  refine ⟨_, exec_mulForm hform, ?_, ?_, ?_, zeroSignOf_resultState .., fun hzero => ?_,
    onlyRegisterWritten_resultState ..⟩
  · rw [reg_resultState, toNat_value_aluMul]
  · rw [flags_resultState, c_aluMul_iff]
  · rw [flags_resultState]
    rfl
  · simp [aluMul_of_zero hzero]

/-- Settles O28: the divisor is looked at before anything is written. -/
theorem divisionByZeroFaults : Obligations.DivisionByZeroFaults := by
  intro s d i hform
  rcases divideInto_cases d (s.reg d) 0 s with ⟨hne, -⟩ | ⟨-, hfault⟩
  · exact absurd rfl hne
  · exact (exec_divForm hform).trans hfault

/-- Settles O42: every form writes the result of `aluDiv`, whose Z and S are those of the quotient. -/
theorem divResult : Obligations.DivResult := by
  intro s d i b hform hb
  have hexec : exec i s = .next (resultState d (aluDiv (s.reg d) b) s) := by
    rcases divideInto_cases d (s.reg d) b s with ⟨-, hwrite⟩ | ⟨hzero, -⟩
    · exact ((exec_divForm hform).trans hwrite).trans (writeResult_eq d _ s)
    · exact absurd hzero hb
  have hpos : 0 < b.toNat := by bv_omega
  have hquotient : ((resultState d (aluDiv (s.reg d) b) s).reg d).toNat = (s.reg d).toNat / b.toNat := by
    rw [reg_resultState, toNat_value_aluDiv]
  obtain ⟨hz, hs⟩ : ZeroSignOf (resultState d (aluDiv (s.reg d) b) s)
      ((resultState d (aluDiv (s.reg d) b) s).reg d) := zeroSignOf_resultState ..
  rw [hquotient] at hz hs
  exact ⟨_, hexec, hquotient, congrArg Flags.c (flags_resultState ..), congrArg Flags.o (flags_resultState ..),
    hz.trans (Nat.div_eq_zero_iff_lt hpos), hs.trans (le_div_iff_divisor_eq_one hb),
    onlyRegisterWritten_resultState ..⟩

/-! ### The source's examples -/

/-- Settles O43: the operands fix the result of the operation, and the form does not matter. -/
theorem sourceFlagExamples : Obligations.SourceFlagExamples := by
  intro s d i
  refine ⟨fun hform ha => ⟨_, exec_addForm hform, ?_⟩, fun hform ha => ⟨_, exec_subForm hform, ?_⟩,
    fun hform ha => ⟨_, exec_mulForm hform, ?_⟩⟩
  all_goals
    rw [reg_resultState, flags_resultState, ha]
    decide

end Sys2Proof.Proofs.ArithmeticFamily
end

section
/-! PROOF. CMP: the state its forms leave, which is SUB's but for the register (R130), and the comparisons that the flags
of a subtraction decide (R105, R120, R130). -/

namespace Sys2Proof.Machine

open Sys2Proof.Claims

/-! ### The state after the flags alone are written (R130) -/

/-- Writing back the value that a register holds changes nothing. -/
theorem State.setReg_reg (s : State) (d : Reg) : s.setReg d (s.reg d) = s := by cases d <;> rfl

/-- A write of flags and of `pc <- next` is one that also writes back the value some register holds (R130). -/
theorem onlyRegisterWritten_setFlags_advance (d : Reg) (fl : Flags) (s : State) :
    OnlyRegisterWritten d s (s.setFlags fl).advance := by
  simpa only [State.setReg_reg] using
    onlyRegisterWritten_setFlags_setReg_advance d ((s.setFlags fl).reg d) fl s

/-- Every form of CMP ends in the state with the flags of `aluSub` and `pc <- next` (R131 to R134). -/
theorem exec_cmpForm {s : State} {d : Reg} {i : Instr} {b : Byte} (h : SourceForm .cmpI .cmpR .cmpA .cmpX s d i b) :
    exec i s = .next (s.setFlags (aluSub (s.reg d) b).flags).advance :=
  SourceMeaning.exec_eq (body := fun _ v w => writeFlags (aluSub v w) s)
    ⟨fun _ _ => rfl, fun _ _ => rfl, fun _ _ => rfl, fun _ _ => rfl⟩ h

/-! ### What the flags of a subtraction say of its operands (R130) -/

section SubFlags

variable (a b : Byte)

/-- The masked difference is 0 only for equal operands: the exact one is between -255 and 255. -/
theorem z_aluSub_iff : (aluSub a b).flags.z = true ↔ a = b := by
  have hdiff := toNat_low (a.toNat - b.toNat)
  have hzero : low ((a.toNat : Int) - b.toNat) = 0 ↔ (low ((a.toNat : Int) - b.toNat)).toNat = 0 :=
    BitVec.toNat_inj.symm
  simp only [aluSub, z_aluResult, decide_eq_true_eq, hzero, ← BitVec.toNat_inj (x := a)]
  omega

/-- Neither a borrow nor a zero difference: the first operand is the larger one. -/
theorem c_z_aluSub_false_iff :
    (aluSub a b).flags.c = false ∧ (aluSub a b).flags.z = false ↔ b.toNat < a.toNat := by
  rw [← Bool.not_eq_true, ← Bool.not_eq_true, c_aluSub_iff, z_aluSub_iff, ← BitVec.toNat_inj]
  omega

/-- S is the sign of the masked difference. -/
theorem s_aluSub_iff : (aluSub a b).flags.s = true ↔ 128 ≤ (aluSub a b).value.toNat := bit7_iff _

/-- S is the sign of the exact signed difference when that is in range (O is 0), and the opposite sign when it is not
(O is 1). -/
theorem s_ne_o_aluSub_iff : (aluSub a b).flags.s ≠ (aluSub a b).flags.o ↔ a.toInt < b.toInt := by
  rw [ne_eq, Bool.eq_iff_iff, s_aluSub_iff, o_aluSub_iff, toNat_value_aluSub]
  simp only [BitVec.toInt_eq_toNat_cond]
  omega

end SubFlags

end Sys2Proof.Machine
end

section
/-! PROOF. The obligation of the family of comparison: CMP (R130 to R134). -/

namespace Sys2Proof.Proofs.ComparisonFamily

open Sys2Proof.Machine Sys2Proof.Claims

/-- Settles O39: every form writes the flags of `aluSub`, as SUB of an immediate with the same value does, and nothing
else. -/
theorem cmpOrdersOperands : Obligations.CmpOrdersOperands := by
  intro s d i b hform
  have hflags : (s.setFlags (aluSub (s.reg d) b).flags).advance.flags = (aluSub (s.reg d) b).flags := by simp
  refine ⟨_, _, exec_cmpForm hform, exec_subForm (.immediate b), ?_, ?_, ?_, ?_, ?_, fun q => by simp,
    onlyRegisterWritten_setFlags_advance ..⟩
  · rw [hflags, flags_resultState]
  · rw [hflags, z_aluSub_iff]
  · rw [hflags, c_aluSub_iff]
  · rw [hflags, c_z_aluSub_false_iff]
  · rw [hflags, s_ne_o_aluSub_iff]

end Sys2Proof.Proofs.ComparisonFamily
end

section
/-! PROOF. The logical operations as operations on bytes and the shifts as arithmetic on their operand (R140 to R162),
and the state that their forms leave (R100, R141). -/

namespace Sys2Proof.Machine

open Sys2Proof.Claims

/-! ### Results of the logical operations (R142 to R154) -/

/-- Masking a byte changes nothing (R5). -/
theorem low_toNat (v : Byte) : low (v.toNat : Int) = v :=
  BitVec.eq_of_toNat_eq ((toNat_low_natCast v.toNat).trans (Nat.mod_eq_of_lt v.isLt))

/-- Taking a byte from 0xFF complements every bit (R154). -/
theorem aluNot_eq (a : Byte) : aluNot a = aluResult ((~~~a).toNat : Int) false false := by
  have hlt := a.isLt
  have hnot : ((~~~a).toNat : Int) = 0xFF - (a.toNat : Int) := by
    rw [BitVec.toNat_not]
    omega
  rw [aluNot, hnot]

/-! ### Results and carries of the shifts (R141, R155 to R162) -/

section Shifts

variable (a b : Byte)

theorem toNat_value_aluShl : (aluShl a b).value.toNat = (a.toNat * 2 ^ b.toNat) % 256 := by
  rw [← Nat.shiftLeft_eq]
  exact toNat_low_natCast (a.toNat <<< b.toNat)

/-- A quotient of a byte is a byte, so masking it changes nothing. -/
theorem toNat_value_aluShr : (aluShr a b).value.toNat = a.toNat / 2 ^ b.toNat := by
  have hle : a.toNat / 2 ^ b.toNat ≤ a.toNat := Nat.div_le_self ..
  have hlt := a.isLt
  rw [← Nat.shiftRight_eq_div_pow] at hle ⊢
  exact (toNat_low_natCast (a.toNat >>> b.toNat)).trans (Nat.mod_eq_of_lt (by omega))

/-- The bit that b shifts by one carry out last is bit b - 1, of which a byte has none for b above 8. -/
theorem c_aluShr_iff : (aluShr a b).flags.c = true ↔ b.toNat ≤ 8 ∧ a.getLsbD (b.toNat - 1) = true := by
  have hcarry : (aluShr a b).flags.c = a.getLsbD (b.toNat - 1) := by
    simp only [aluShr, c_aluResult, params_shiftCount, Nat.testBit_shiftRight, Nat.add_zero, BitVec.testBit_toNat]
  have hbound : a.getLsbD (b.toNat - 1) = true → b.toNat ≤ 8 := fun hset => by
    have := BitVec.lt_of_getLsbD hset
    omega
  rw [hcarry]
  exact ⟨fun hset => ⟨hbound hset, hset⟩, And.right⟩

variable {b}

/-- The bit that b shifts by one carry out last is bit 8 - b, and a 0 shifted in before it for b above 8. -/
theorem c_aluShl_iff (hb : b ≠ 0) :
    (aluShl a b).flags.c = true ↔ b.toNat ≤ 8 ∧ a.getLsbD (8 - b.toNat) = true := by
  have hpos : 0 < b.toNat := by bv_omega
  have hbound : 7 ≥ b.toNat - 1 ↔ b.toNat ≤ 8 := by omega
  have hbit : 7 - (b.toNat - 1) = 8 - b.toNat := by omega
  simp only [aluShl, c_aluResult, params_shiftCount, Nat.testBit_shiftLeft, Bool.and_eq_true, decide_eq_true_eq,
    hbound, hbit, BitVec.testBit_toNat]

/-- A shift to the right by 1 or more leaves at most 127, so its sign bit is 0 (R159). -/
theorem s_aluShr (hb : b ≠ 0) : (aluShr a b).flags.s = false := by
  have hlt := a.isLt
  have htwo : 2 ^ 1 ≤ 2 ^ b.toNat := Nat.pow_le_pow_right (by decide) (by bv_omega)
  have hhalf : a.toNat / 2 ^ b.toNat ≤ a.toNat / 2 := Nat.div_le_div_left htwo (by decide)
  have hs : (aluShr a b).flags.s = true ↔ 128 ≤ (aluShr a b).value.toNat := bit7_iff _
  rw [← Bool.not_eq_true, hs, toNat_value_aluShr]
  omega

end Shifts

/-! ### The state after a logical instruction (R140) -/

/-- An instruction that ends in the state with the result `v`, C and O cleared, has every bit of `v` in its destination,
Z and S of `v`, and the frame of a register write. -/
theorem exists_next_of_exec_bits {s : State} {d : Reg} {i : Instr} {v : Byte} {bits : Nat → Bool}
    (hexec : exec i s = .next (resultState d (aluResult (v.toNat : Int) false false) s))
    (hbits : ∀ k < 8, v.getLsbD k = bits k) :
    ∃ t, exec i s = .next t ∧ (∀ k < 8, (t.reg d).getLsbD k = bits k) ∧ t.flags.c = false ∧ t.flags.o = false ∧
      ZeroSignOf t (t.reg d) ∧ OnlyRegisterWritten d s t := by
  refine ⟨_, hexec, fun k hk => ?_, ?_, ?_, zeroSignOf_resultState .., onlyRegisterWritten_resultState ..⟩
  · rw [reg_resultState, value_aluResult, low_toNat]
    exact hbits k hk
  · rw [flags_resultState, c_aluResult]
  · rw [flags_resultState, o_aluResult]

/-! ### The forms of the logical instructions and of the shifts (R142 to R162) -/

section Forms

variable {s : State} {d : Reg} {i : Instr} {b : Byte}

theorem exec_andForm (h : SourceForm .andI .andR .andA .andX s d i b) :
    exec i s = .next (resultState d (aluAnd (s.reg d) b) s) :=
  SourceMeaning.exec_writeResult (op := aluAnd)
    ⟨fun _ _ => rfl, fun _ _ => rfl, fun _ _ => rfl, fun _ _ => rfl⟩ h

theorem exec_orForm (h : SourceForm .orI .orR .orA .orX s d i b) :
    exec i s = .next (resultState d (aluOr (s.reg d) b) s) :=
  SourceMeaning.exec_writeResult (op := aluOr)
    ⟨fun _ _ => rfl, fun _ _ => rfl, fun _ _ => rfl, fun _ _ => rfl⟩ h

theorem exec_xorForm (h : SourceForm .xorI .xorR .xorA .xorX s d i b) :
    exec i s = .next (resultState d (aluXor (s.reg d) b) s) :=
  SourceMeaning.exec_writeResult (op := aluXor)
    ⟨fun _ _ => rfl, fun _ _ => rfl, fun _ _ => rfl, fun _ _ => rfl⟩ h

theorem exec_shlForm (h : SourceForm .shlI .shlR .shlA .shlX s d i b) :
    exec i s = shiftInto aluShl d (s.reg d) b s :=
  SourceMeaning.exec_eq (body := fun d v w => shiftInto aluShl d v w s)
    ⟨fun _ _ => rfl, fun _ _ => rfl, fun _ _ => rfl, fun _ _ => rfl⟩ h

theorem exec_shrForm (h : SourceForm .shrI .shrR .shrA .shrX s d i b) :
    exec i s = shiftInto aluShr d (s.reg d) b s :=
  SourceMeaning.exec_eq (body := fun d v w => shiftInto aluShr d v w s)
    ⟨fun _ _ => rfl, fun _ _ => rfl, fun _ _ => rfl, fun _ _ => rfl⟩ h

end Forms

theorem exec_not (s : State) (d : Reg) : exec (.not d.toByte) s = .next (resultState d (aluNot (s.reg d)) s) :=
  (withReg_toByte d s _).trans (writeResult_eq d _ s)

/-- A shift by 0 is `pc <- next` alone (R141). -/
theorem shiftInto_zero (shift : Byte → Byte → AluResult) (d : Reg) (a : Byte) (s : State) :
    shiftInto shift d a 0 s = .next s.advance := by
  rcases shiftInto_cases shift d a 0 s with ⟨-, hadvance⟩ | ⟨hne, -⟩
  · exact hadvance
  · exact absurd rfl hne

/-- A shift by any other amount writes its result (R141). -/
theorem shiftInto_of_ne {b : Byte} (hb : b ≠ 0) (shift : Byte → Byte → AluResult) (d : Reg) (a : Byte) (s : State) :
    shiftInto shift d a b s = .next (resultState d (shift a b) s) := by
  rcases shiftInto_cases shift d a b s with ⟨hzero, -⟩ | ⟨-, hwrite⟩
  · exact absurd hzero hb
  · exact hwrite.trans (writeResult_eq d _ s)

end Sys2Proof.Machine
end

section
/-! PROOF. The obligations of the family of logical and shift: AND, OR, XOR, NOT, SHL and SHR (R140 to R162). -/

namespace Sys2Proof.Proofs.LogicalShiftFamily

open Sys2Proof.Machine Sys2Proof.Claims

/-! ### AND, OR, XOR and NOT -/

/-- Settles O44: every form writes the operation of the two bytes, which the masking of the result leaves as it is. -/
theorem bitwiseResult : Obligations.BitwiseResult := by
  intro s d i b
  refine ⟨fun hand => ?_, fun hor => ?_, fun hxor => ?_⟩
  · exact exists_next_of_exec_bits (exec_andForm hand) fun _ _ => BitVec.getLsbD_and
  · exact exists_next_of_exec_bits (exec_orForm hor) fun _ _ => BitVec.getLsbD_or
  · exact exists_next_of_exec_bits (exec_xorForm hxor) fun _ _ => BitVec.getLsbD_xor

/-- Settles O45: 0xFF less the byte is the byte's complement. -/
theorem notResult : Obligations.NotResult := by
  intro s d
  have hexec := exec_not s d
  rw [aluNot_eq] at hexec
  exact exists_next_of_exec_bits hexec fun k hk => by simp [hk]

/-! ### SHL and SHR -/

/-- Settles O46: every form writes the result of `aluShl` when the amount is not 0. -/
theorem shlResult : Obligations.ShlResult := by
  intro s d i b hform hb
  have hexec := (exec_shlForm hform).trans (shiftInto_of_ne hb ..)
  refine ⟨_, hexec, ?_, ?_, ?_, zeroSignOf_resultState .., onlyRegisterWritten_resultState ..⟩
  · rw [reg_resultState, toNat_value_aluShl]
  · rw [flags_resultState, c_aluShl_iff _ hb]
  · rw [flags_resultState]
    rfl

/-- Settles O47: every form writes the result of `aluShr` when the amount is not 0, and that result is below 0x80. -/
theorem shrResult : Obligations.ShrResult := by
  intro s d i b hform hb
  have hexec := (exec_shrForm hform).trans (shiftInto_of_ne hb ..)
  refine ⟨_, hexec, ?_, ?_, ?_, ?_, zeroSignOf_resultState .., onlyRegisterWritten_resultState ..⟩
  · rw [reg_resultState, toNat_value_aluShr]
  · rw [flags_resultState, c_aluShr_iff]
  · rw [flags_resultState]
    rfl
  · rw [flags_resultState, s_aluShr _ hb]

/-- Settles O48: the amount is looked at before anything is written. -/
theorem shiftByZeroChangesNothing : Obligations.ShiftByZeroChangesNothing := by
  intro imm reg dir ind hfamily s d i hform
  cases hfamily with
  | shl => exact (exec_shlForm hform).trans (shiftInto_zero ..)
  | shr => exact (exec_shrForm hform).trans (shiftInto_zero ..)

end Sys2Proof.Proofs.LogicalShiftFamily
end

section
/-! PROOF. The obligation of the family of control flow: the eighteen jumps (R170 to R190). -/

namespace Sys2Proof.Proofs.ControlFlowFamily

open Sys2Proof.Machine Sys2Proof.Claims

/-- A jump through a register goes to the effective address itself when it is taken: no byte is read there (R53, R170,
D18). The companion of `exec_direct_of_jumpFamily`. -/
theorem exec_indirect_of_jumpFamily {dir : Byte → Instr} {ind : Indirect → Instr} {taken : Flags → Bool}
    (h : JumpFamily dir ind taken) (x : Indirect) (s : State) :
    exec (ind x) s = .next (s.setPc (if taken s.flags then s.eaInd x else s.pc + 1)) := by
  cases h with
  | jmp | jc | jnc | jz | jnz | jo | jno | js | jns =>
    unfold exec
    exact jumpIf_eq _ _ s

/-- Settles O49: every form is `jumpIf` on its family's condition, which sets pc and nothing else. -/
theorem jumpsWriteOnlyPc : Obligations.JumpsWriteOnlyPc := by
  intro dir ind taken hfamily s
  constructor
  · intro a
    exact exec_direct_of_jumpFamily hfamily a s
  · intro x
    exact exec_indirect_of_jumpFamily hfamily x s

end Sys2Proof.Proofs.ControlFlowFamily
end

section
/-! PROOF. What a push leaves whatever follows it, when a push or a pop passes its check of SP and when it fails it, and
the pop that follows a push (R200, R201, R209). -/

namespace Sys2Proof.Machine

open Sys2Proof.Claims

/-! ### Push (R200) -/

/-- What a push of `v` from `s` has done to the state `t` in which its instruction ends, completed or faulted: the byte
stands at the old SP and SP is one less, while pc, F, RS and the history are left to what follows the push. -/
structure PushFrame (v : Byte) (s t : State) : Prop where
  byte : byteAt t s.sp.toNat = v
  sp : t.sp = s.sp - 1
  memory : SameMemoryBut s.sp.toNat s t
  registers : SameRegisters s t
  flags : t.flags = s.flags
  inputs : SameInputs s t

theorem byteAt_pushed (v : Byte) (s : State) (a : Nat) :
    byteAt (pushed v s) a = if a = s.sp.toNat then v else byteAt s a :=
  byteAt_store s s.sp.toNat v a

/-- A push of a legal SP stores below the display region, so it emits nothing (R12, R32). -/
theorem events_pushed {s : State} (h : s.sp.toNat ≤ 0xBF) (v : Byte) : (pushed v s).events = s.events :=
  (State.events_store s s.sp.toNat v).trans (if_neg (by omega))

theorem pushFrame_pushed (v : Byte) (s : State) : PushFrame v s (pushed v s) where
  byte := by rw [byteAt_pushed, if_pos rfl]
  sp := sp_pushed v s
  memory := fun a ha => by rw [byteAt_pushed, if_neg ha]
  registers := reg_pushed v s
  flags := flags_pushed v s
  inputs := ⟨inbox_pushed v s, draws_pushed v s⟩

section PushFrame

variable {s t : State} {v : Byte}

/-- A write of pc keeps what the push did (R215). -/
theorem PushFrame.setPc (h : PushFrame v s t) (target : Int) : PushFrame v s (t.setPc target) :=
  { h with registers := fun q => (State.reg_setPc t target q).trans (h.registers q) }

theorem PushFrame.advance (h : PushFrame v s t) : PushFrame v s t.advance := h.setPc t.next

/-- Fault entry keeps what the push did (R232). -/
theorem PushFrame.enterFault (h : PushFrame v s t) (r : FaultReport) : PushFrame v s (t.enterFault r) :=
  { h with registers := fun q => (State.reg_enterFault t r q).trans (h.registers q) }

/-- SP after the push of an SP that the decrement does not wrap (R200). -/
theorem PushFrame.toNat_sp (h : PushFrame v s t) (hsp : 0 < s.sp.toNat) : t.sp.toNat = s.sp.toNat - 1 := by
  rw [h.sp]
  bv_omega

end PushFrame

section Stack

variable {s : State}

/-- A push with SP at the lowest legal address fails its check (R200). -/
theorem withPush_of_min (v : Byte) (k : State → Result) (h : s.sp = 0x80) :
    withPush v s k = .next ((pushed v s).enterFault (.stackOverflow 0x7F)) := by
  have hsp : s.sp - 1 = 0x7F := by rw [h]; decide
  rcases withPush_cases v s k with ⟨hok, -⟩ | ⟨-, e⟩
  · rw [hsp] at hok
    exact absurd hok (by decide)
  · rw [e, hsp]

/-! ### Pop (R201) -/

theorem toNat_sp_add_one (h : s.sp.toNat < 0xBF) : (s.sp + 1).toNat = s.sp.toNat + 1 := by bv_omega

/-- A pop with SP below the highest legal address passes its check and hands on the byte above (R201). -/
theorem withPop_of_lt (h : s.sp.toNat < 0xBF) (k : Byte → State → Result) :
    withPop s k = k (byteAt s (s.sp.toNat + 1)) (s.setSp (s.sp + 1)) := by
  have hsp := toNat_sp_add_one h
  rcases withPop_cases s k with ⟨-, e⟩ | ⟨hhigh, -⟩
  · rw [e, hsp]
    rfl
  · omega

/-- A pop with SP at the highest legal address fails its check (R201). -/
theorem withPop_of_max (h : s.sp = 0xBF) (k : Byte → State → Result) :
    withPop s k = .next (faultState (.stackUnderflow 0xC0) { s with sp := 0xC0 }) := by
  have hsp : s.sp + 1 = 0xC0 := by rw [h]; decide
  rcases withPop_cases s k with ⟨hok, -⟩ | ⟨-, e⟩
  · rw [hsp] at hok
    exact absurd hok (by decide)
  · rw [e, hsp]
    rfl

/-- A pop in a state that a push left hands on the byte pushed, with SP where it was before the push (R209). -/
theorem withPop_of_pushed {t : State} {v : Byte} (hbyte : byteAt t s.sp.toNat = v) (hsp : t.sp = s.sp - 1)
    (h : 0x81 ≤ s.sp.toNat ∧ s.sp.toNat ≤ 0xBF) (k : Byte → State → Result) :
    withPop t k = k v (t.setSp s.sp) := by
  obtain ⟨hlo, hhi⟩ := h
  have hnat : t.sp.toNat = s.sp.toNat - 1 := by rw [hsp]; bv_omega
  have haddr : t.sp.toNat + 1 = s.sp.toNat := by omega
  have hback : t.sp + 1 = s.sp := by rw [hsp, BitVec.sub_add_cancel]
  rw [withPop_of_lt (by omega), haddr, hback, hbyte]

end Stack

/-! ### The status byte (R16, R207, R208) -/

/-- The flags that POPF takes from a status byte are the flags it was made of. -/
@[simp] theorem flagsOfByte_sr (s : State) : flagsOfByte s.sr = s.flags := by
  obtain ⟨-, -, hc, ho, hz, hs, -⟩ := Proofs.StateFamily.statusByteLayout s
  rw [flagsOfByte, hc, ho, hz, hs]

/-! ### The instructions of the stack -/

section Forms

variable {s : State} {i : Instr}

/-- Every push is `Push` of its byte and `pc <- next`: its register byte is valid and the address it reads, if any, is
in memory (R202 to R205, R207). -/
theorem exec_pushForm {v : Byte} (h : PushForm s i v) : exec i s = withPush v s fun s1 => .next s1.advance := by
  cases h with
  | immediate | status => rfl
  | register r => exact withReg_toByte r s _
  | direct a => exact withRead_byte a s fun v => withPush v s fun s1 => .next s1.advance
  | indirect x hspace =>
    exact withRead_of_in (inMemory_iff_inSpace.2 hspace) s fun v => withPush v s fun s1 => .next s1.advance

/-- Every call is `Push` of the low byte of `next` and a jump (R215, R216). -/
theorem exec_callForm {target : Int} (h : CallForm s i target) :
    exec i s = withPush (low (s.pc + 1)) s fun s1 => .next (s1.setPc target) := by
  cases h with
  | direct | indirect => rfl

/-- A push with SP above 0x80 completes (R200). -/
theorem exec_pushForm_of_lt {v : Byte} (h : PushForm s i v) (hsp : 0x80 < s.sp.toNat) :
    exec i s = .next (pushed v s).advance := by
  rw [exec_pushForm h, withPush_of_lt v _ hsp]

/-- A call with SP above 0x80 completes (R200). -/
theorem exec_callForm_of_lt {target : Int} (h : CallForm s i target) (hsp : 0x80 < s.sp.toNat) :
    exec i s = .next ((pushed (low (s.pc + 1)) s).setPc target) := by
  rw [exec_callForm h, withPush_of_lt _ _ hsp]

theorem exec_pop (s : State) (r : Reg) : exec (.pop r.toByte) s = withPop s (writeReg r) := withReg_toByte r s _

theorem exec_popf (s : State) : exec .popf s = withPop s fun v s1 => .next (s1.setFlags (flagsOfByte v)).advance := rfl

theorem exec_ret (s : State) : exec .ret s = withPop s fun v s1 => .next (s1.setPc v.toNat) := rfl

end Forms

/-! ### Faults (R231, R232) -/

/-- How an instruction comes to fault: before it wrote anything, or at the check of SP that ends a push or a pop. -/
theorem Effect.fault_cases {i : Instr} {s t : State} {r : FaultReport} (h : Effect i s t) (ht : t.rs = .faulted r)
    (hs : ∀ r', s.rs ≠ .faulted r') :
    (r.ofStack = false ∧ t = s.enterFault r) ∨
      (∃ v, Pushes i s v ∧ (s.sp - 1).toNat < 0x80 ∧ r = .stackOverflow (s.sp - 1) ∧
        t = (Machine.pushed v s).enterFault r) ∨
      (0xBF < (s.sp + 1).toNat ∧ r = .stackUnderflow (s.sp + 1) ∧ t = (s.setSp (s.sp + 1)).enterFault r) := by
  cases h with
  | faulted r' hr =>
    cases ht
    exact .inl ⟨hr, rfl⟩
  | overflowed v hp hsp =>
    cases ht
    exact .inr (.inl ⟨v, hp, hsp, rfl, rfl⟩)
  | underflowed _ hsp =>
    cases ht
    exact .inr (.inr ⟨hsp, rfl, rfl⟩)
  | halted => cases ht
  | _ => exact absurd (by simpa using ht) (hs r)

end Sys2Proof.Machine
end

section
/-! PROOF. The obligations of the family of the stack: pushes and calls, pops and returns, their faults, the round
trips, and what every fault leaves (R200 to R209, R215 to R217, R231, R232). -/

namespace Sys2Proof.Proofs.StackFamily

open Sys2Proof.Machine Sys2Proof.Claims

/-! ### Pushes and calls -/

/-- Settles O50: with SP above 0x80 the push passes its check, and `pc <- next` keeps what it did. -/
theorem pushStoresBelow : Obligations.PushStoresBelow := by
  intro s i v hform ⟨hlo, hhi⟩
  have hframe := (pushFrame_pushed v s).advance
  exact ⟨_, exec_pushForm_of_lt hform hlo, hframe.byte, hframe.toNat_sp (by omega), hframe.memory, hframe.registers,
    hframe.flags, ⟨f_pushed v s, rs_pushed v s⟩, hframe.inputs, events_pushed hhi v, by simp⟩

/-- Settles O51: as a push, with the jump in place of `pc <- next`. -/
theorem callPushesReturnAddress : Obligations.CallPushesReturnAddress := by
  intro s i target hform ⟨hlo, hhi⟩
  have hframe := (pushFrame_pushed (low (s.pc + 1)) s).setPc target
  exact ⟨_, exec_callForm_of_lt hform hlo, by rw [hframe.byte, toNat_low], hframe.toNat_sp (by omega), rfl,
    hframe.memory, hframe.registers, hframe.flags, ⟨f_pushed _ s, rs_pushed _ s⟩, hframe.inputs, events_pushed hhi _⟩

/-- Settles O52: a push and a call begin with the same `Push`, which fails its check after its writes; what follows it
in either is not reached. -/
theorem pushOverflowFaults : Obligations.PushOverflowFaults := by
  intro s i v hform hsp
  have hexec : exec i s = .next ((pushed v s).enterFault (.stackOverflow 0x7F)) := by
    rcases hform with hpush | ⟨⟨target, hcall⟩, hv⟩
    · rw [exec_pushForm hpush, withPush_of_min v _ hsp]
    · have hlow : low (s.pc + 1) = v := by
        apply BitVec.eq_of_toNat_eq
        have := toNat_low (s.pc + 1)
        omega
      rw [exec_callForm hcall, hlow, withPush_of_min v _ hsp]
  have hframe := (pushFrame_pushed v s).enterFault (.stackOverflow 0x7F)
  have haddr : s.sp.toNat = 0x80 := by rw [hsp]; rfl
  refine ⟨_, hexec, rfl, rfl, ?_, haddr ▸ hframe.byte, ?_, pc_pushed v s, haddr ▸ hframe.memory, hframe.registers,
    hframe.flags, hframe.inputs⟩
  · rw [State.events_enterFault, events_pushed (by omega)]
  · rw [hframe.sp, hsp]
    decide

/-! ### Pops and returns -/

/-- Settles O53: with SP below 0xBF the pop passes its check, and each form writes the byte above SP to its one
destination. -/
theorem popTakesFromAbove : Obligations.PopTakesFromAbove := by
  rintro s ⟨-, hhi⟩
  have hpop := withPop_of_lt (s := s) (by omega)
  have hsp := toNat_sp_add_one (s := s) (by omega)
  refine ⟨fun r => ?_, ?_, ?_⟩
  · obtain ⟨hregs, hsp', hmem, hrun, hin, hevents, hpc⟩ :=
      onlyRegisterWritten_setReg_advance r (byteAt s (s.sp.toNat + 1)) (s.setSp (s.sp + 1))
    rw [exec_pop, hpop]
    refine ⟨_, rfl, by simp, ?_, fun q hq => ?_, by simp, hmem, hrun, hin, hevents, hpc⟩
    · rw [hsp', State.sp_setSp, hsp]
    · rw [hregs q hq, State.reg_setSp]
  · rw [exec_popf, hpop]
    exact ⟨_, rfl, rfl, hsp, fun q => by simp, fun _ => rfl, ⟨rfl, rfl⟩, ⟨rfl, rfl⟩, rfl, rfl⟩
  · rw [exec_ret, hpop]
    exact ⟨_, rfl, rfl, hsp, rfl, fun q => by simp, fun _ => rfl, ⟨rfl, rfl⟩, ⟨rfl, rfl⟩, rfl⟩

/-- Settles O54: every form begins with the same `Pop`, which fails its check before the byte is used. -/
theorem popUnderflowFaults : Obligations.PopUnderflowFaults := by
  intro s i hform hsp
  cases hform with
  | register r => rw [exec_pop, withPop_of_max hsp]
  | status => rw [exec_popf, withPop_of_max hsp]
  | ret => rw [exec_ret, withPop_of_max hsp]

/-! ### Round trips -/

/-- Settles O55: neither `pc <- next`, nor a jump, nor a write of the flags between push and pop touches the byte pushed
or SP. -/
theorem popUndoesPush : Obligations.PopUndoesPush := by
  intro s hsp
  refine ⟨fun i v hform => ⟨_, exec_pushForm_of_lt hform hsp.1, fun r => ?_⟩,
    ⟨_, exec_pushForm_of_lt .status hsp.1, fun between => ?_⟩,
    fun i target hform => ⟨_, exec_callForm_of_lt hform hsp.1, rfl, ?_⟩⟩
  · have hframe := (pushFrame_pushed v s).advance
    rw [exec_pop, withPop_of_pushed hframe.byte hframe.sp hsp]
    exact ⟨_, rfl, by simp, by simp⟩
  · have hframe := (pushFrame_pushed s.sr s).advance
    have hpop := withPop_of_pushed (t := (pushed s.sr s).advance.setFlags between) hframe.byte hframe.sp hsp
    exact ⟨_, (exec_popf _).trans (hpop _), flagsOfByte_sr s, rfl⟩
  · have hframe := (pushFrame_pushed (low (s.pc + 1)) s).setPc target
    rw [exec_ret, withPop_of_pushed hframe.byte hframe.sp hsp]
    exact ⟨_, rfl, toNat_low (s.pc + 1), rfl⟩

/-! ### What every fault leaves -/

/-- Settles O25, over the ways in which an instruction can fault: an overflow keeps the push, an underflow the move of
SP, and every other fault comes before the first write. -/
theorem faultsArePrecise : Obligations.FaultsArePrecise := by
  intro i s t r hexec ht hs
  rcases (exec_effect hexec).fault_cases ht hs with ⟨hr, rfl⟩ | ⟨v, hp, hlow, rfl, rfl⟩ | ⟨hhigh, rfl, rfl⟩
  · refine ⟨rfl, State.reg_enterFault s r, rfl, rfl, rfl, ⟨rfl, rfl⟩, ?_⟩
    cases r with
    | stackOverflow | stackUnderflow => cases hr
    | _ => exact ⟨rfl, fun _ => rfl⟩
  · have hframe := (pushFrame_pushed v s).enterFault (.stackOverflow (s.sp - 1))
    exact ⟨pc_pushed v s, hframe.registers, hframe.flags, rfl, rfl, hframe.inputs,
      rfl, hlow, hframe.sp, by rw [hp.byte, hframe.byte], hframe.memory⟩
  · exact ⟨rfl, fun q => by simp, rfl, rfl, rfl, ⟨rfl, rfl⟩, rfl, hhigh, rfl, fun _ => rfl⟩

end Sys2Proof.Proofs.StackFamily
end

section
/-! PROOF. What IN does, case by case of `PortIn` (R220, R221): a supplied byte, a free answer, the hold. -/

namespace Sys2Proof.Machine

section Ports

variable {s s1 : State} {p v : Byte}

/-! ### `PortIn(p)` (R220; log 15) -/

/-- The oldest byte supplied for the port is taken out from among the waiting bytes. -/
theorem portIn_of_supplied {before after : List PortAnswer}
    (hinbox : s.inbox = before ++ { port := p, value := v } :: after) (hbefore : ∀ a ∈ before, a.port ≠ p) :
    s.portIn p = some (v, { s with inbox := before ++ after }.emit (.portIn p v)) := by
  have htake : takeAnswer p s.inbox = some (v, before ++ after) := hinbox ▸ takeAnswer_append hbefore
  rcases portIn_cases s p with ⟨w, rest, hw, e⟩ | ⟨hnone, -⟩ | ⟨hnone, -⟩
  · obtain ⟨rfl, rfl⟩ : w = v ∧ rest = before ++ after := by simpa using hw.symm.trans htake
    exact e
  · cases hnone.symm.trans htake
  · cases hnone.symm.trans htake

/-- A port other than the keyboard's answers without a supplied byte (D15). -/
theorem portIn_of_free (hempty : ∀ a ∈ s.inbox, a.port ≠ p) (hp : p ≠ 0x01) :
    ∃ v, s.portIn p = some (v, { s with draws := s.draws + 1 }.emit (.portIn p v)) := by
  rcases portIn_cases s p with ⟨w, rest, hw, -⟩ | ⟨-, hkeyboard, -⟩ | ⟨-, -, e⟩
  · cases hw.symm.trans (takeAnswer_none hempty)
  · exact absurd hkeyboard hp
  · exact ⟨_, e⟩

/-- The keyboard has no answer without a supplied byte (R221). -/
theorem portIn_keyboard_eq_none (hempty : ∀ a ∈ s.inbox, a.port ≠ 0x01) : s.portIn 0x01 = none := by
  rcases portIn_cases s 0x01 with ⟨w, rest, hw, -⟩ | ⟨-, -, e⟩ | ⟨-, hne, -⟩
  · cases hw.symm.trans (takeAnswer_none hempty)
  · exact e
  · exact absurd rfl hne

/-! ### The instruction -/

/-- An answered IN writes the answer to AL in the state the port leaves. -/
theorem exec_inp_of_answered (h : s.portIn p = some (v, s1)) : exec (.inp p) s = .next (s1.setReg .al v).advance := by
  unfold exec
  simp only [execInp, h, writeReg]

/-- An IN without an answer holds. -/
theorem exec_inp_of_unanswered (h : s.portIn p = none) : exec (.inp p) s = .next s.hold := by
  unfold exec
  simp only [execInp, h]

/-- The hold takes back the one operand byte that the fetch of IN went past (log 16). -/
theorem hold_setPc_add_one (s : State) : (s.setPc (s.pc + 1)).hold = s := by
  simp only [State.hold, State.pc_setPc, State.setPc_setPc, add_sub_cancel_right]
  rfl

end Ports

end Sys2Proof.Machine
end

section
/-! PROOF. The obligations of the family of input, output and halt (R220 to R224, R243). -/

namespace Sys2Proof.Proofs.InputOutputFamily

open Sys2Proof.Machine Sys2Proof.Claims

/-- Settles O56: in both cases the port answers, and IN writes the answer to AL and goes on. -/
theorem inReadsPort : Obligations.InReadsPort := by
  intro s p
  constructor
  · intro v before after hinbox hbefore
    exact exec_inp_of_answered (portIn_of_supplied hinbox hbefore)
  · intro hempty hp
    obtain ⟨v, hanswer⟩ := portIn_of_free hempty hp
    exact ⟨v, exec_inp_of_answered hanswer⟩

/-- Settles O57: the fetch of the two bytes of IN moves pc by one, and the hold moves it back. -/
theorem keyboardHoldsCore : Obligations.KeyboardHoldsCore := by
  intro s rest hrs hspace hdecode hempty
  calc step s
    _ = exec (.inp 0x01) (s.setPc (s.pc + 1)) := EncodingFamily.stepRunsDecoded s _ rest hrs hspace hdecode
    _ = .next (s.setPc (s.pc + 1)).hold := exec_inp_of_unanswered (portIn_keyboard_eq_none hempty)
    _ = .next s := congrArg _ (hold_setPc_add_one s)

/-- Settles O13: the run state alone selects what a step is. -/
theorem haltedHasNoStep : Obligations.HaltedHasNoStep := by
  intro s hhalt
  simp only [step, hhalt]

/-- Settles O58, by evaluating the two instructions, neither of which reads anything it must branch on. -/
theorem outAndHltComplete : Obligations.OutAndHltComplete :=
  ⟨fun _ _ => rfl, fun _ => rfl⟩

end Sys2Proof.Proofs.InputOutputFamily
end

section
/-! PROOF. A run of several steps, and the step of a Faulted core (R233). -/

namespace Sys2Proof.Machine

/-- A run whose first step answers a state goes on from that state. -/
theorem run_succ_of_step {s t : State} (h : step s = .next t) (k : Nat) :
    Host.Core.run core (k + 1) s = Host.Core.run core k t := by
  have hcore : core.step s = .next t := h
  simp only [Host.Core.run, hcore]

/-- A Faulted core delivers the report that its run state carries (R233, D20). -/
theorem step_of_faulted {s : State} {r : FaultReport} (hrs : s.rs = .faulted r) :
    step s = .next (s.emit (.faultRaised r)) := by
  simp only [step, hrs, raiseAgain]

end Sys2Proof.Machine
end

section
/-! PROOF. The obligation of the family of exceptions: a Faulted core raises its fault again at each step (R233). -/

namespace Sys2Proof.Proofs.ExceptionsFamily

open Sys2Proof.Machine Sys2Proof.Claims

/-- Settles O12, by induction on the number of steps: the report added by the first step leaves the core Faulted with
the same report, and it stands below the reports of the later steps. -/
theorem faultedReRaisesForever : Obligations.FaultedReRaisesForever := by
  intro s r k hrs
  induction k generalizing s with
  | zero => rfl
  | succ k ih =>
    have hstill : (s.emit (.faultRaised r)).rs = .faulted r := (State.rs_emit s _).trans hrs
    have hevents : List.replicate k (Event.faultRaised r) ++ .faultRaised r :: s.events =
        List.replicate (k + 1) (.faultRaised r) ++ s.events := by
      rw [List.replicate_succ', List.append_assoc, List.singleton_append]
    calc Host.Core.run core (k + 1) s
      _ = Host.Core.run core k (s.emit (.faultRaised r)) := run_succ_of_step (step_of_faulted hrs) k
      _ = .next { s with events := List.replicate k (.faultRaised r) ++ .faultRaised r :: s.events } := ih _ hstill
      _ = .next { s with events := List.replicate (k + 1) (.faultRaised r) ++ s.events } := by rw [hevents]

end Sys2Proof.Proofs.ExceptionsFamily
end

section
/-! PROOF. The power-on state: a fixed point of both resets, in which the fetch finds HLT at address 0 (R260, R261). -/

namespace Sys2Proof.Machine

open Sys2Proof.Claims

@[simp] theorem State.cpuReset_reset : State.reset.cpuReset = State.reset := rfl

@[simp] theorem State.memReset_reset : State.reset.memReset = State.reset := rfl

/-- With no program loaded the bytes at pc are 0, and opcode 0 is HLT (R58, R261). -/
theorem decode_bytesAt_reset : decode (State.reset.bytesAt State.reset.pc) = .ok (.hlt, [0x00, 0x00]) := rfl

end Sys2Proof.Machine
end

section
/-! PROOF. The obligation of the family of reset and hazards: the power-on state and its first step (R260, R261). -/

namespace Sys2Proof.Proofs.ResetFamily

open Sys2Proof.Machine Sys2Proof.Claims

/-- Settles O2: the power-on state has the values that both resets leave, since neither changes it, and its first step
runs the HLT that the bytes at pc decode to. -/
theorem powerOnThenHalts : Obligations.PowerOnThenHalts := by
  have hvalues := StateFamily.resetValues State.reset
  simp only [State.cpuReset_reset, State.memReset_reset] at hvalues
  obtain ⟨hreg, hsp, hpc, -, -, hsr, hrs, -, hprogram, hdisplay, -⟩ := hvalues
  have hspace : InSpace State.reset.pc := ⟨by decide, by decide⟩
  refine ⟨hreg, hsp, hpc, hsr, hrs, hprogram, hdisplay, ?_⟩
  calc step State.reset
    _ = exec .hlt State.reset := EncodingFamily.stepRunsDecoded _ _ _ hrs hspace decode_bytesAt_reset
    _ = .next { State.reset with rs := .halted, pc := 1 } := InputOutputFamily.outAndHltComplete.2 _

end Sys2Proof.Proofs.ResetFamily
end
